-- ==== Sys2Proof/Word.lean ====
section
/-! DEFINITION. The widths of the machine (spec 00_scope R11, 30_encoding R81). Every value is unsigned (R10). -/

namespace Sys2Proof

/-- A V register, a timer, sp, and every memory, stack and framebuffer byte (00_scope R11). -/
abbrev Byte := BitVec 8

/-- pc, I, input and an instruction word (00_scope R11). -/
abbrev Word := BitVec 16

/-- The fields x, y and n of an instruction, and so a register number (30_encoding R81, 10_state R21). -/
abbrev Nibble := BitVec 4

/-- The field nnn of an instruction, a 12-bit address (30_encoding R81, R83). -/
abbrev Addr := BitVec 12

/-- The number of the flag register VF (10_state R22). -/
abbrev vf : Nibble := 0xF#4

end Sys2Proof
end

