-- ==== Sys2Proof/Syntax.lean ====
section
/-! DEFINITION. The instruction set: one constructor for each row of spec/opcode_table.json, in the table's order
(30_encoding R92). Field names are the spec's (R81). A field that execution ignores (the y of SHR and SHL, the n of
5xyN and 9xyN, R82) and the word of a NOP are carried along, so that decoding drops no bit (log 7). -/

namespace Sys2Proof

inductive Instr where
  /-- CLS, 00E0 (R174). -/
  | cls
  /-- RET, 00EE (R115). -/
  | ret
  /-- JP nnn, 1nnn (R116). -/
  | jp (nnn : Addr)
  /-- CALL nnn, 2nnn (R117). -/
  | call (nnn : Addr)
  /-- SE Vx,kk, 3xkk (R118). -/
  | seByte (x : Nibble) (kk : Byte)
  /-- SNE Vx,kk, 4xkk (R119). -/
  | sneByte (x : Nibble) (kk : Byte)
  /-- SE Vx,Vy, 5xyN for every N (R120, R95). -/
  | seReg (x y n : Nibble)
  /-- LD Vx,kk, 6xkk (R131). -/
  | ldByte (x : Nibble) (kk : Byte)
  /-- ADD Vx,kk, 7xkk (R132). -/
  | addByte (x : Nibble) (kk : Byte)
  /-- LD Vx,Vy, 8xy0 (R133). -/
  | ldReg (x y : Nibble)
  /-- OR Vx,Vy, 8xy1 (R134). -/
  | orReg (x y : Nibble)
  /-- AND Vx,Vy, 8xy2 (R135). -/
  | andReg (x y : Nibble)
  /-- XOR Vx,Vy, 8xy3 (R136). -/
  | xorReg (x y : Nibble)
  /-- ADD Vx,Vy, 8xy4 (R137). -/
  | addReg (x y : Nibble)
  /-- SUB Vx,Vy, 8xy5 (R138). -/
  | subReg (x y : Nibble)
  /-- SHR Vx, 8xy6 for every y (R139). -/
  | shr (x y : Nibble)
  /-- SUBN Vx,Vy, 8xy7 (R140). -/
  | subnReg (x y : Nibble)
  /-- SHL Vx, 8xyE for every y (R141). -/
  | shl (x y : Nibble)
  /-- SNE Vx,Vy, 9xyN for every N (R121, R95). -/
  | sneReg (x y n : Nibble)
  /-- LD I,nnn, Annn (R151). -/
  | ldI (nnn : Addr)
  /-- JP V0,nnn, Bnnn (R122). -/
  | jpV0 (nnn : Addr)
  /-- RND Vx,kk, Cxkk (R142). -/
  | rnd (x : Nibble) (kk : Byte)
  /-- DRW Vx,Vy,n, Dxyn (R175). -/
  | drw (x y n : Nibble)
  /-- SKP Vx, Ex9E (R192). -/
  | skp (x : Nibble)
  /-- SKNP Vx, ExA1 (R193). -/
  | sknp (x : Nibble)
  /-- LD Vx,DT, Fx07 (R194). -/
  | ldVxDt (x : Nibble)
  /-- LD Vx,K, Fx0A (R195). -/
  | ldVxK (x : Nibble)
  /-- LD DT,Vx, Fx15 (R196). -/
  | ldDtVx (x : Nibble)
  /-- LD ST,Vx, Fx18 (R197). -/
  | ldStVx (x : Nibble)
  /-- ADD I,Vx, Fx1E (R152). -/
  | addI (x : Nibble)
  /-- LD F,Vx, Fx29 (R153). -/
  | ldF (x : Nibble)
  /-- LD B,Vx, Fx33 (R155). -/
  | ldB (x : Nibble)
  /-- LD [I],Vx, Fx55 (R156). -/
  | storeRegs (x : Nibble)
  /-- LD Vx,[I], Fx65 (R157). -/
  | loadRegs (x : Nibble)
  /-- NOP, every word that matches no other row (R93, R114). -/
  | nop (w : Word)
  deriving DecidableEq, Repr

end Sys2Proof
end

