-- ==== Sys2Proof/Decode.lean ====
section
/-! DEFINITION. The decoder (30_encoding R84 to R91), total on words and on byte lists, and the encoder (R92). -/

namespace Sys2Proof

/-! Byte order: big-endian (20_memory R55). -/

/-- The 16-bit value of two bytes, the high one first (20_memory R54, R55). -/
def joinBytes (hi lo : Byte) : Word := hi ++ lo

/-- v div 256 (20_memory R60). -/
def highByte (w : Word) : Byte := w.extractLsb' 8 8

/-- v mod 256 (20_memory R60). -/
def lowByte (w : Word) : Byte := w.extractLsb' 0 8

/-! The fields of an instruction word (30_encoding R81). -/

/-- op = w[15:12]. -/
def opField (w : Word) : Nibble := w.extractLsb' 12 4

/-- x = w[11:8]. -/
def xField (w : Word) : Nibble := w.extractLsb' 8 4

/-- y = w[7:4]. -/
def yField (w : Word) : Nibble := w.extractLsb' 4 4

/-- n = w[3:0]. -/
def nField (w : Word) : Nibble := w.extractLsb' 0 4

/-- kk = w[7:0]. -/
def kkField (w : Word) : Byte := w.extractLsb' 0 8

/-- nnn = w[11:0]. -/
def nnnField (w : Word) : Addr := w.extractLsb' 0 12

/-! The decoder (30_encoding R90). -/

/-- High nibble 0: the whole word decides (R85, 92 D6). -/
def decode0 (w : Word) : Instr :=
  if w = 0x00E0#16 then .cls else if w = 0x00EE#16 then .ret else .nop w

/-- High nibble 8: the low nibble decides (R87). -/
def decode8 (w : Word) : Instr :=
  match (nField w).toNat with
  | 0x0 => .ldReg (xField w) (yField w)
  | 0x1 => .orReg (xField w) (yField w)
  | 0x2 => .andReg (xField w) (yField w)
  | 0x3 => .xorReg (xField w) (yField w)
  | 0x4 => .addReg (xField w) (yField w)
  | 0x5 => .subReg (xField w) (yField w)
  | 0x6 => .shr (xField w) (yField w)
  | 0x7 => .subnReg (xField w) (yField w)
  | 0xE => .shl (xField w) (yField w)
  | _ => .nop w

/-- High nibble E: the low byte decides (R88). -/
def decodeE (w : Word) : Instr :=
  match (kkField w).toNat with
  | 0x9E => .skp (xField w)
  | 0xA1 => .sknp (xField w)
  | _ => .nop w

/-- High nibble F: the low byte decides (R89). -/
def decodeF (w : Word) : Instr :=
  match (kkField w).toNat with
  | 0x07 => .ldVxDt (xField w)
  | 0x0A => .ldVxK (xField w)
  | 0x15 => .ldDtVx (xField w)
  | 0x18 => .ldStVx (xField w)
  | 0x1E => .addI (xField w)
  | 0x29 => .ldF (xField w)
  | 0x33 => .ldB (xField w)
  | 0x55 => .storeRegs (xField w)
  | 0x65 => .loadRegs (xField w)
  | _ => .nop w

/-- Decode: a pure, total function from a word to one of the 35 variants (R84, R86, R90). The last arm is the high
nibble F, the one 4-bit value left. -/
def decodeWord (w : Word) : Instr :=
  match (opField w).toNat with
  | 0x0 => decode0 w
  | 0x1 => .jp (nnnField w)
  | 0x2 => .call (nnnField w)
  | 0x3 => .seByte (xField w) (kkField w)
  | 0x4 => .sneByte (xField w) (kkField w)
  | 0x5 => .seReg (xField w) (yField w) (nField w)
  | 0x6 => .ldByte (xField w) (kkField w)
  | 0x7 => .addByte (xField w) (kkField w)
  | 0x8 => decode8 w
  | 0x9 => .sneReg (xField w) (yField w) (nField w)
  | 0xA => .ldI (nnnField w)
  | 0xB => .jpV0 (nnnField w)
  | 0xC => .rnd (xField w) (kkField w)
  | 0xD => .drw (xField w) (yField w) (nField w)
  | 0xE => decodeE w
  | _ => decodeF w

/-- Why a byte list holds no instruction: an instruction is 2 bytes long (30_encoding R80). No word is refused
(R91, R93). -/
inductive DecodeError where
  /-- Fewer than two bytes are left. -/
  | truncated (bytesLeft : Nat)
  deriving DecidableEq, Repr

/-- The instruction at the head of a byte list, high byte first, and the bytes after it. -/
def decode : List Byte → Except DecodeError (Instr × List Byte)
  | hi :: lo :: rest => .ok (decodeWord (joinBytes hi lo), rest)
  | [_] => .error (.truncated 1)
  | [] => .error (.truncated 0)

/-! The encoder (30_encoding R92, R99). -/

/-- A word with fields op, x, kk. -/
def wordXKk (op x : Nibble) (kk : Byte) : Word := op ++ x ++ kk

/-- A word with fields op, x, y, n. -/
def wordXYN (op x y n : Nibble) : Word := op ++ x ++ y ++ n

/-- A word with fields op, nnn. -/
def wordNnn (op : Nibble) (nnn : Addr) : Word := op ++ nnn

/-- The word of an instruction (30_encoding R92). -/
def encode : Instr → Word
  | .cls => 0x00E0
  | .ret => 0x00EE
  | .jp nnn => wordNnn 0x1 nnn
  | .call nnn => wordNnn 0x2 nnn
  | .seByte x kk => wordXKk 0x3 x kk
  | .sneByte x kk => wordXKk 0x4 x kk
  | .seReg x y n => wordXYN 0x5 x y n
  | .ldByte x kk => wordXKk 0x6 x kk
  | .addByte x kk => wordXKk 0x7 x kk
  | .ldReg x y => wordXYN 0x8 x y 0x0
  | .orReg x y => wordXYN 0x8 x y 0x1
  | .andReg x y => wordXYN 0x8 x y 0x2
  | .xorReg x y => wordXYN 0x8 x y 0x3
  | .addReg x y => wordXYN 0x8 x y 0x4
  | .subReg x y => wordXYN 0x8 x y 0x5
  | .shr x y => wordXYN 0x8 x y 0x6
  | .subnReg x y => wordXYN 0x8 x y 0x7
  | .shl x y => wordXYN 0x8 x y 0xE
  | .sneReg x y n => wordXYN 0x9 x y n
  | .ldI nnn => wordNnn 0xA nnn
  | .jpV0 nnn => wordNnn 0xB nnn
  | .rnd x kk => wordXKk 0xC x kk
  | .drw x y n => wordXYN 0xD x y n
  | .skp x => wordXKk 0xE x 0x9E
  | .sknp x => wordXKk 0xE x 0xA1
  | .ldVxDt x => wordXKk 0xF x 0x07
  | .ldVxK x => wordXKk 0xF x 0x0A
  | .ldDtVx x => wordXKk 0xF x 0x15
  | .ldStVx x => wordXKk 0xF x 0x18
  | .addI x => wordXKk 0xF x 0x1E
  | .ldF x => wordXKk 0xF x 0x29
  | .ldB x => wordXKk 0xF x 0x33
  | .storeRegs x => wordXKk 0xF x 0x55
  | .loadRegs x => wordXKk 0xF x 0x65
  | .nop w => w

/-- The bytes of an instruction as memory holds them, high byte first (20_memory R55). -/
def encodeBytes (i : Instr) : List Byte := [highByte (encode i), lowByte (encode i)]

/-- The word of an opcode-table numeral: bit 0 is the least significant bit, bits from nbits up are zero. -/
def tableWord (nbits w : Nat) : Word := BitVec.ofNat 16 (w % 2 ^ nbits)

/-- The instruction the decoder reads from a table numeral laid out in memory order. -/
def decodeTableWord (nbits w : Nat) : Option Instr :=
  match decode [highByte (tableWord nbits w), lowByte (tableWord nbits w)] with
  | .ok (i, _) => some i
  | .error _ => none

end Sys2Proof
end

