-- ==== Sys2Proof/Config.lean ====
section
/-! DEFINITION. The open parameters of the block (spec 00_scope R9): the shape of FONT, and the free values of RNG
and SCHEDULE. A schedule that is known is data of the state (State.schedule, State.unending). -/

namespace Sys2Proof

/-- The type of the parameter FONT: 80 bytes, 16 glyphs of 5 rows (00_scope R9, 70_reset_and_hazards R242).
The font is an argument of the Reset operation (HostOp.reset). -/
abbrev Font := Vector Byte 80

/-- The random byte of the n-th RND (parameter RNG: 00_scope R9, 41_register_alu R142, 92 D16). A FREE VALUE: it has
no body, so a theorem about it holds for every sequence of draws. Log 2. -/
opaque Config.randomByte : Nat → Byte

namespace Machine

/-- The operations the host may invoke, each an indivisible transition (60_exceptions R226); these and no others change
the state (R232). -/
inductive HostOp where
  /-- Execute one instruction (R227). -/
  | tick
  /-- Count both timers down (R228). -/
  | timerTick
  /-- Return to the default state with this FONT installed (R229, 70 R240). -/
  | reset (font : Font)
  /-- Copy a program to 0x200 (R230). -/
  | load (program : List Byte)
  /-- Set the key bitmask (R231). -/
  | setInput (mask : Word)
  deriving DecidableEq, Repr, Inhabited

end Machine

/-- The host operation of the n-th turn of an unending schedule that nothing is known of (parameter SCHEDULE: 00_scope
R9, 92 D18). A FREE VALUE: it has no body, so a theorem about it holds for every infinite sequence. Log 3. -/
opaque Config.hostOp : Nat → Machine.HostOp

end Sys2Proof
end

