-- ==== Sys2Proof/Machine/State.lean ====
section
/-! DEFINITION. The state of the block (10_state R20), the reasons a step can stop, and the state after reset (R41). -/

namespace Sys2Proof.Machine

/-- The cause of a StackFault (60_exceptions R211). -/
inductive StackCause where
  /-- Code 1: CALL with sp > 62. -/
  | overflow
  /-- Code 2: RET with sp < 2. -/
  | underflow
  deriving DecidableEq, Repr

/-- The result the last tick reported (10_state R36, 60_exceptions R214). -/
inductive Status where
  | running
  | waiting
  | faulted (cause : StackCause)
  deriving DecidableEq, Repr

/-- What the host invokes once the listed operations are done, for ever (parameter SCHEDULE: 00_scope R9, 92 D18; log 3). -/
inductive Unending where
  /-- These operations over and over, a rate the host keeps; with none named, Ticks alone. -/
  | cycle (ops : List HostOp)
  /-- Any operations whatever: the free value Config.hostOp, from this turn on. -/
  | free (turn : Nat)
  deriving DecidableEq, Repr

/-- The 16 general registers V0 to VF (10_state R21). -/
abbrev Registers := Vector Byte 16

/-- The return stack's 64 bytes (10_state R28). -/
abbrev StackBytes := Vector Byte 64

/-- The framebuffer's 256 bytes (10_state R33). -/
abbrev Framebuffer := Vector Byte 256

/-- The 4096-byte memory (10_state R34), sparse: the cells that differ from the reset contents, addresses rising
(Memory.wf in Machine/Ops.lean; log 10). -/
abbrev Memory := List Host.Cell

/-- Every element of 10_state R20, and the model's own three fields for the parameters RNG and SCHEDULE. -/
structure State where
  /-- V0 to VF (R21). -/
  v : Registers
  /-- The index register I (R27). -/
  i : Word
  /-- The program counter (R25). -/
  pc : Word
  /-- The return stack (R28). -/
  stack : StackBytes
  /-- The stack pointer, a byte offset (R29). -/
  sp : Byte
  /-- The delay timer (R30). -/
  dt : Byte
  /-- The sound timer (R31). -/
  st : Byte
  /-- The framebuffer (R33). -/
  fb : Framebuffer
  /-- The memory M (R34). -/
  mem : Memory
  /-- The key bitmask (R32). -/
  input : Word
  /-- The fault latch (R37). -/
  faulted : Bool
  /-- The last tick's result (R36). -/
  status : Status
  /-- MODEL'S OWN: how many random bytes have been drawn; RNG (00_scope R9) as a free value (log 2). -/
  draws : Nat
  /-- MODEL'S OWN: the host operations listed to come, the next one first; SCHEDULE (00_scope R9) as data (log 3). -/
  schedule : List HostOp
  /-- MODEL'S OWN: what the host invokes after those, for ever; SCHEDULE (00_scope R9) as data (log 3). -/
  unending : Unending
  deriving DecidableEq, Repr

/-- What stops the machine. -/
inductive Fault where
  /-- Raised by RET alone, when sp > 64 makes pop read a stack byte at an offset past 63, which does not exist
  (10_state R28, 90 C6). SAFE: no run from reset reaches such an sp (20_memory R62). Log 4. -/
  | stackByteAbsent (offset : Nat)
  deriving DecidableEq, Repr

/-- What the model gives no meaning. -/
inductive Refusal where
  /-- Raised by exec's arms alone, for an instruction not modelled yet. SAFE. No arm raises it. -/
  | notModelled (mnemonic : String)
  /-- Raised by the host operation Load alone, for a program of more than 3584 bytes, which the spec refuses
  (60_exceptions R230, 92 D20). SAFE. Log 8. -/
  | loadTooLong (length : Nat)
  deriving DecidableEq, Repr

/-- The outcome of an instruction, a host operation or a step. -/
abbrev Result := Host.Outcome State Fault Refusal

/-- The state after reset (10_state R41): all zero, pc = 0x200, memory as reset leaves it (nothing listed), status
Running; no draw taken (log 2), no host operation listed and Ticks for ever (log 3). -/
def State.reset : State where
  v := Vector.replicate 16 0
  i := 0
  pc := 0x200
  stack := Vector.replicate 64 0
  sp := 0
  dt := 0
  st := 0
  fb := Vector.replicate 256 0
  mem := []
  input := 0
  faulted := false
  status := .running
  draws := 0
  schedule := []
  unending := .cycle []

end Sys2Proof.Machine
end

