-- ==== Sys2Proof/Machine/Font.lean ====
section
/-! DEFINITION. The default value of the parameter FONT (70_reset_and_hazards R242). -/

namespace Sys2Proof.Machine

/-- The default FONT: 16 glyphs of 5 row bytes, glyph d at 5d (70_reset_and_hazards R242). PRESUMED: the spec supplies
the bytes from general knowledge (log 1). -/
def defaultFont : Font :=
  #v[0xF0, 0x90, 0x90, 0x90, 0xF0,  -- 0
     0x20, 0x60, 0x20, 0x20, 0x70,  -- 1
     0xF0, 0x10, 0xF0, 0x80, 0xF0,  -- 2
     0xF0, 0x10, 0xF0, 0x10, 0xF0,  -- 3
     0x90, 0x90, 0xF0, 0x10, 0x10,  -- 4
     0xF0, 0x80, 0xF0, 0x10, 0xF0,  -- 5
     0xF0, 0x80, 0xF0, 0x90, 0xF0,  -- 6
     0xF0, 0x10, 0x20, 0x40, 0x40,  -- 7
     0xF0, 0x90, 0xF0, 0x90, 0xF0,  -- 8
     0xF0, 0x90, 0xF0, 0x10, 0xF0,  -- 9
     0xF0, 0x90, 0xF0, 0x90, 0x90,  -- A
     0xE0, 0x90, 0xE0, 0x90, 0xE0,  -- B
     0xF0, 0x80, 0x80, 0x80, 0xF0,  -- C
     0xE0, 0x90, 0x90, 0x90, 0xE0,  -- D
     0xF0, 0x80, 0xF0, 0x80, 0xF0,  -- E
     0xF0, 0x80, 0xF0, 0x80, 0x80]  -- F

end Sys2Proof.Machine
end

