-- ==== Sys2Proof/Machine/Ops.lean ====
section
/-! DEFINITION. The named operations over memory, registers, stack and pc (20_memory, 40_control_flow), and taking the one
exception, StackFault (60_exceptions R212). There is no return from it: only Reset clears it (R213). -/

namespace Sys2Proof.Machine

/-! Memory (20_memory R51 to R54). -/

/-- What an address that the memory list does not name reads as: its reset contents, the default FONT at 0x000..0x04F
and 0 elsewhere (10_state R41, 20_memory R58). -/
def Memory.unlisted (a : Nat) : Byte := if h : a < 80 then defaultFont[a] else 0

/-- The byte at address a (a < 4096). -/
def Memory.read : Memory → Nat → Byte
  | [], a => Memory.unlisted a
  | (k, b) :: rest, a => if a = k then b else Memory.read rest a

/-- The cell that makes address a read as v: none where v is what an unlisted a reads as. -/
def Memory.cell (a : Nat) (v : Byte) : Memory := if v = Memory.unlisted a then [] else [(a, v)]

/-- The memory with byte v at address a, in canonical form. -/
def Memory.write : Memory → Nat → Byte → Memory
  | [], a, v => Memory.cell a v
  | (k, b) :: rest, a, v =>
    if a < k then Memory.cell a v ++ (k, b) :: rest
    else if a = k then Memory.cell a v ++ rest
    else (k, b) :: Memory.write rest a v

/-- The canonical form: addresses strictly rising, below 4096, no cell equal to what its address reads as unlisted. -/
abbrev Memory.wf (m : Memory) : Prop :=
  m.Pairwise (fun p q => p.1 < q.1) ∧ ∀ c ∈ m, c.1 < 4096 ∧ c.2 ≠ Memory.unlisted c.1

/-- Every address is reduced modulo 4096 at the access (20_memory R51). -/
def physical (a : Word) : Nat := a.toNat % 4096

/-- MemRead(a, 1) on a memory (20_memory R52). -/
def Memory.readAt (m : Memory) (a : Word) : Byte := m.read (physical a)

/-- MemWrite(a, 1, v) on a memory (20_memory R53). -/
def Memory.writeAt (m : Memory) (a : Word) (v : Byte) : Memory := m.write (physical a) v

/-- MemRead(a, 1) (20_memory R52). -/
def State.memRead (s : State) (a : Word) : Byte := s.mem.readAt a

/-- MemWrite(a, 1, v), the source's store_byte; it changes no other state (20_memory R53). -/
def State.memWrite (s : State) (a : Word) (v : Byte) : State := { s with mem := s.mem.writeAt a v }

/-- fetch_instruction(a): the bytes at a and a + 1, each reduced modulo 4096, big-endian (20_memory R54). -/
def State.fetchWord (s : State) (a : Word) : Word := joinBytes (s.memRead a) (s.memRead (a + 1))

/-! Registers (10_state R21). -/

/-- V[x] of a register file. -/
def Registers.get (v : Registers) (x : Nibble) : Byte := v[x.toNat]'x.isLt

/-- A register file with V[x] <- b. -/
def Registers.put (v : Registers) (x : Nibble) (b : Byte) : Registers := Vector.set v x.toNat b x.isLt

/-- V[x]. -/
def State.reg (s : State) (x : Nibble) : Byte := Registers.get s.v x

/-- V[x] <- b. -/
def State.setReg (s : State) (x : Nibble) (b : Byte) : State := { s with v := Registers.put s.v x b }

/-! The program counter (40_control_flow R111 to R113). -/

/-- jump_to(a): pc <- a & 0x0FFF (R111). -/
def State.jumpTo (s : State) (a : Word) : State := { s with pc := a &&& 0x0FFF#16 }

/-- advance(k): pc <- (pc + k) mod 65536, with no 12-bit mask (R112, 92 D3). -/
def State.advance (s : State) (k : Word) : State := { s with pc := s.pc + k }

/-- The ordinary end of an instruction: advance(2) (R112). -/
def State.nextInstr (s : State) : State := s.advance 2

/-- A conditional skip: advance(4) when the condition holds, else advance(2) (R113, 92 D4). -/
def State.skipIf (s : State) (condition : Bool) : State := s.advance (if condition then 4 else 2)

/-! The stack (20_memory R60, R61). -/

/-- push(v), on success: v big-endian at sp, then sp <- sp + 2; on a full stack the fault raised (R60). -/
def State.push (s : State) (v : Word) : Except StackCause State :=
  if h : s.sp.toNat ≤ 62 then
    .ok { s with
      stack := (s.stack.set s.sp.toNat (highByte v) (by omega)).set (s.sp.toNat + 1) (lowByte v) (by omega)
      sp := s.sp + 2 }
  else .error .overflow

/-- What pop can answer. -/
inductive Popped where
  /-- The value read, and the state with sp lowered (R61). -/
  | value (v : Word) (s : State)
  /-- The stack is empty: the fault raised (R61). -/
  | raises (cause : StackCause)
  /-- sp > 64: the byte at this offset does not exist (90 C6; log 4). -/
  | absent (offset : Nat)
  deriving DecidableEq, Repr

/-- pop(): sp <- sp - 2, then the big-endian value there; the bytes read stay (R61). -/
def State.pop (s : State) : Popped :=
  if s.sp.toNat < 2 then .raises .underflow
  else if h : s.sp.toNat ≤ 64 then
    .value (joinBytes (s.stack[s.sp.toNat - 2]'(by omega)) (s.stack[s.sp.toNat - 1]'(by omega)))
      { s with sp := s.sp - 2 }
  else .absent (s.sp.toNat - 1)

/-- Taking a StackFault: nothing changes but the latch and the status; pc stays at the faulting instruction
(60_exceptions R212, 92 D15). -/
def State.raiseStackFault (s : State) (cause : StackCause) : State :=
  { s with faulted := true, status := .faulted cause }

/-! The default state with any FONT, and placing a word where the next tick fetches. -/

/-- The memory with a run of bytes written from an address up, each address reduced modulo 4096. -/
def Memory.writeBytes (m : Memory) (a : Word) : List Byte → Memory
  | [] => m
  | b :: rest => Memory.writeBytes (m.writeAt a b) (a + 1) rest

/-- The default state with FONT installed at 0x000..0x04F (70_reset_and_hazards R240, R242). -/
def State.resetWith (font : Font) : State :=
  { State.reset with mem := Memory.writeBytes [] 0 font.toList }

/-- The state in which the next tick fetches this word: both bytes at pc, big-endian (20_memory R54), the latch clear
and no other host operation before the tick (log 5). -/
def State.placeWord (s : State) (w : Word) : State :=
  { (s.memWrite s.pc (highByte w)).memWrite (s.pc + 1) (lowByte w) with
    faulted := false, schedule := [], unending := .cycle [] }

end Sys2Proof.Machine
end

