-- ==== Sys2Proof/Machine/Flags.lean ====
section
/-! DEFINITION. The one flag, VF (10_state R22 to R24): what each writer puts there, and the order of its write. -/

namespace Sys2Proof.Machine

/-- V[0xF] <- (C ? 1 : 0) (00_scope R13). -/
def flagByte (c : Bool) : Byte := if c then 1 else 0

/-- ADD Vx,Vy: the sum wrapped, that is result < left operand (41_register_alu R137). -/
def addFlag (a b : Byte) : Byte := flagByte (decide (a + b < a))

/-- SUB Vx,Vy: no borrow, strictly a > b; SUBN takes it with the operands reversed (41_register_alu R138, R140). -/
def noBorrowFlag (a b : Byte) : Byte := flagByte (decide (a > b))

/-- SHR Vx: the old bit 0 (41_register_alu R139). -/
def lowBitFlag (a : Byte) : Byte := a &&& 1

/-- SHL Vx: the old bit 7 (41_register_alu R141). -/
def highBitFlag (a : Byte) : Byte := a >>> 7

/-- VF first, the destination second: with x = 0xF the result stays (41_register_alu R130, 10_state R23, 92 D8). -/
def State.setFlagAndReg (s : State) (flag : Byte) (x : Nibble) (result : Byte) : State :=
  (s.setReg vf flag).setReg x result

end Sys2Proof.Machine
end

