-- ==== Sys2Proof/Machine/Alu.lean ====
section
/-! DEFINITION. Register loads, ALU and random (41_register_alu R131 to R142). Operands are read before any write (R130). -/

namespace Sys2Proof.Machine

/-- LD Vx,kk (R131). -/
def execLdByte (x : Nibble) (kk : Byte) (s : State) : Result := .next (s.setReg x kk).nextInstr

/-- ADD Vx,kk: wraps, no flag (R132). -/
def execAddByte (x : Nibble) (kk : Byte) (s : State) : Result := .next (s.setReg x (s.reg x + kk)).nextInstr

/-- LD Vx,Vy (R133). -/
def execLdReg (x y : Nibble) (s : State) : Result := .next (s.setReg x (s.reg y)).nextInstr

/-- OR Vx,Vy: no flag (R134). -/
def execOrReg (x y : Nibble) (s : State) : Result := .next (s.setReg x (s.reg x ||| s.reg y)).nextInstr

/-- AND Vx,Vy: no flag (R135). -/
def execAndReg (x y : Nibble) (s : State) : Result := .next (s.setReg x (s.reg x &&& s.reg y)).nextInstr

/-- XOR Vx,Vy: no flag (R136). -/
def execXorReg (x y : Nibble) (s : State) : Result := .next (s.setReg x (s.reg x ^^^ s.reg y)).nextInstr

/-- ADD Vx,Vy: VF is the carry (R137). -/
def execAddReg (x y : Nibble) (s : State) : Result :=
  .next (s.setFlagAndReg (addFlag (s.reg x) (s.reg y)) x (s.reg x + s.reg y)).nextInstr

/-- SUB Vx,Vy: VF is Vx > Vy (R138). -/
def execSubReg (x y : Nibble) (s : State) : Result :=
  .next (s.setFlagAndReg (noBorrowFlag (s.reg x) (s.reg y)) x (s.reg x - s.reg y)).nextInstr

/-- SHR Vx: VF is the old bit 0; y is ignored (R139). -/
def execShr (x _y : Nibble) (s : State) : Result :=
  .next (s.setFlagAndReg (lowBitFlag (s.reg x)) x (s.reg x >>> 1)).nextInstr

/-- SUBN Vx,Vy: VF is Vy > Vx (R140). -/
def execSubnReg (x y : Nibble) (s : State) : Result :=
  .next (s.setFlagAndReg (noBorrowFlag (s.reg y) (s.reg x)) x (s.reg y - s.reg x)).nextInstr

/-- SHL Vx: VF is the old bit 7; y is ignored (R141). -/
def execShl (x _y : Nibble) (s : State) : Result :=
  .next (s.setFlagAndReg (highBitFlag (s.reg x)) x (s.reg x * 2)).nextInstr

/-- RND Vx,kk: a fresh draw, masked (R142). The draw is a free value (log 2). -/
def execRnd (x : Nibble) (kk : Byte) (s : State) : Result :=
  .next { (s.setReg x (Config.randomByte s.draws &&& kk)).nextInstr with draws := s.draws + 1 }

end Sys2Proof.Machine
end

