-- ==== Sys2Proof/Machine/Operands.lean ====
section
/-! DEFINITION. The operand forms (30_encoding R82, R83; 42_index_memory R150; 40_control_flow R122), bulk transfers through
I (R156, R157), the decimal digits (R154) and the key helpers (44_timers_input R190, R191). Register operands are
State.reg, and a literal byte stands for itself. -/

namespace Sys2Proof.Machine

/-- A 12-bit address operand, zero-extended (30_encoding R83). -/
def address (nnn : Addr) : Word := nnn.setWidth 16

/-- A register value where a 16-bit one is needed, zero-extended (30_encoding R83). -/
def widen (b : Byte) : Word := b.setWidth 16

/-- The target of JP V0,nnn before jump_to masks it: nnn + V0, at most 0x10FE (40_control_flow R122). -/
def State.v0Target (s : State) (nnn : Addr) : Word := address nnn + widen (s.reg 0)

/-- The address of byte k of a transfer through I: (I + k) mod 65536, reduced modulo 4096 at the access (42 R150). -/
def indirect (i : Word) (k : Nat) : Word := i + BitVec.ofNat 16 k

/-- V[k] <- MemRead(I + k) for k = 0 .. count - 1, lowest first (42_index_memory R157). -/
def loadRegisters (m : Memory) (i : Word) (v : Registers) : Nat → Registers
  | 0 => v
  | k + 1 => Registers.put (loadRegisters m i v k) (BitVec.ofNat 4 k) (m.readAt (indirect i k))

/-- MemWrite(I + k, V[k]) for k = 0 .. count - 1, lowest first (42_index_memory R156). -/
def storeRegisters (v : Registers) (i : Word) (m : Memory) : Nat → Memory
  | 0 => m
  | k + 1 => (storeRegisters v i m k).writeAt (indirect i k) (Registers.get v (BitVec.ofNat 4 k))

/-- The hundreds digit of BCD(v) (42_index_memory R154). -/
def bcdHundreds (v : Byte) : Byte := v / 100

/-- The tens digit of BCD(v) (42_index_memory R154). -/
def bcdTens (v : Byte) : Byte := v / 10 % 10

/-- The ones digit of BCD(v) (42_index_memory R154). -/
def bcdOnes (v : Byte) : Byte := v % 10

/-- held(k): bit k of input for k <= 15, false for a larger k (44_timers_input R190, 92 D13). -/
def held (input : Word) (k : Byte) : Bool := decide (k.toNat < 16) && input.getLsbD k.toNat

/-- lowest(m): the smallest k with bit k of m set (44_timers_input R191); not used with m = 0. -/
def lowest (m : Word) : Byte :=
  BitVec.ofNat 8 (((List.range 16).find? (fun k => m.getLsbD k)).getD 0)

end Sys2Proof.Machine
end

