-- ==== Sys2Proof/Machine/Control.lean ====
section
/-! DEFINITION. NOP, jumps, calls, returns and register skips (40_control_flow R114 to R122). -/

namespace Sys2Proof.Machine

/-- NOP: advance(2) and nothing else (R114). The word is not examined. -/
def execNop (_w : Word) (s : State) : Result := .next s.nextInstr

/-- RET: v <- pop(); jump_to(v); StackFault(Underflow) on an empty stack (R115). -/
def execRet (s : State) : Result :=
  match s.pop with
  | .value v s' => .next (s'.jumpTo v)
  | .raises cause => .next (s.raiseStackFault cause)
  | .absent offset => .fault (.stackByteAbsent offset)

/-- JP nnn: jump_to(nnn) (R116). -/
def execJp (nnn : Addr) (s : State) : Result := .next (s.jumpTo (address nnn))

/-- CALL nnn: push((pc + 2) mod 65536); jump_to(nnn); StackFault(Overflow) on a full stack (R117). -/
def execCall (nnn : Addr) (s : State) : Result :=
  match s.push (s.pc + 2) with
  | .ok s' => .next (s'.jumpTo (address nnn))
  | .error cause => .next (s.raiseStackFault cause)

/-- SE Vx,kk (R118). -/
def execSeByte (x : Nibble) (kk : Byte) (s : State) : Result := .next (s.skipIf (s.reg x == kk))

/-- SNE Vx,kk (R119). -/
def execSneByte (x : Nibble) (kk : Byte) (s : State) : Result := .next (s.skipIf (s.reg x != kk))

/-- SE Vx,Vy; the low nibble is not examined (R120, 30_encoding R95). -/
def execSeReg (x y _n : Nibble) (s : State) : Result := .next (s.skipIf (s.reg x == s.reg y))

/-- SNE Vx,Vy; the low nibble is not examined (R121, 30_encoding R95). -/
def execSneReg (x y _n : Nibble) (s : State) : Result := .next (s.skipIf (s.reg x != s.reg y))

/-- JP V0,nnn: jump_to(nnn + V0) (R122). -/
def execJpV0 (nnn : Addr) (s : State) : Result := .next (s.jumpTo (s.v0Target nnn))

end Sys2Proof.Machine
end

