-- ==== Sys2Proof/Machine/Display.lean ====
section
/-! DEFINITION. The XOR blitter, CLS and DRW (43_display R170 to R175). -/

namespace Sys2Proof.Machine

/-- FB[j], for j < 256. -/
def Framebuffer.get (fb : Framebuffer) (j : Nat) : Byte := if h : j < 256 then fb[j] else 0

/-- FB[j] <- FB[j] ^ q, for j < 256. -/
def Framebuffer.xorAt (fb : Framebuffer) (j : Nat) (q : Byte) : Framebuffer :=
  Vector.setIfInBounds fb j (Framebuffer.get fb j ^^^ q)

/-- shl_or_zero(v, s): 0 when s >= 8 (43_display R171, 92 D31). -/
def shlOrZero (v : Byte) (s : Nat) : Byte := if s ≥ 8 then 0 else v <<< s

/-- write_pixel_row(p, px, py): the row XORed in, split over two byte columns of one screen row, and whether a lit
pixel was cleared (43_display R172, R173, 92 D10). -/
def writePixelRow (fb : Framebuffer) (p : Byte) (px py : Nat) : Framebuffer × Bool :=
  let xx := px % 64
  let yy := py % 32
  let c := xx / 8
  let o := xx % 8
  let j0 := 8 * yy + c
  let j1 := 8 * yy + (c + 1) % 8
  let left := p >>> o
  let right := shlOrZero p (8 - o)
  ((Framebuffer.xorAt (Framebuffer.xorAt fb j0 left) j1 right),
    (Framebuffer.get fb j0 &&& left != 0) || (Framebuffer.get fb j1 &&& right != 0))

/-- Sprite rows 0 .. count - 1, lowest first, row r from memory byte I + r at (px, py + r); the collisions
OR-accumulate (43_display R175). -/
def drawRows (m : Memory) (i : Word) (px py : Nat) (fb : Framebuffer) : Nat → Framebuffer × Bool
  | 0 => (fb, false)
  | r + 1 =>
    let before := drawRows m i px py fb r
    let row := writePixelRow before.1 (m.readAt (indirect i r)) px (py + r)
    (row.1, before.2 || row.2)

/-- CLS: every framebuffer byte 0 (R174). -/
def execCls (s : State) : Result := .next { s with fb := Vector.replicate 256 0 }.nextInstr

/-- DRW Vx,Vy,n: the coordinates are read before VF is written, in every case, with the collision (R175). -/
def execDrw (x y n : Nibble) (s : State) : Result :=
  let drawn := drawRows s.mem s.i (s.reg x).toNat (s.reg y).toNat s.fb n.toNat
  .next ({ s with fb := drawn.1 }.setReg vf (flagByte drawn.2)).nextInstr

end Sys2Proof.Machine
end

