-- ==== Sys2Proof/Machine/Index.lean ====
section
/-! DEFINITION. The index register and memory transfer (42_index_memory R151 to R157). -/

namespace Sys2Proof.Machine

/-- LD I,nnn (R151). -/
def execLdI (nnn : Addr) (s : State) : Result := .next { s with i := address nnn }.nextInstr

/-- ADD I,Vx: wraps modulo 65536, no flag, no 12-bit mask (R152). -/
def execAddI (x : Nibble) (s : State) : Result := .next { s with i := s.i + widen (s.reg x) }.nextInstr

/-- LD F,Vx: I <- 5 Vx, Vx not reduced to a nibble (R153). -/
def execLdF (x : Nibble) (s : State) : Result := .next { s with i := widen (s.reg x) * 5 }.nextInstr

/-- LD B,Vx: hundreds, tens and ones at I, I + 1, I + 2, in that order; I is kept (R155). -/
def execLdB (x : Nibble) (s : State) : Result :=
  .next (((s.memWrite (indirect s.i 0) (bcdHundreds (s.reg x))).memWrite (indirect s.i 1) (bcdTens (s.reg x))).memWrite
    (indirect s.i 2) (bcdOnes (s.reg x))).nextInstr

/-- LD [I],Vx: V0..Vx to memory, then I <- I + x + 1 (R156). -/
def execStoreRegs (x : Nibble) (s : State) : Result :=
  .next { s with
    mem := storeRegisters s.v s.i s.mem (x.toNat + 1)
    i := indirect s.i (x.toNat + 1) }.nextInstr

/-- LD Vx,[I]: memory to V0..Vx, then I <- I + x + 1 (R157). -/
def execLoadRegs (x : Nibble) (s : State) : Result :=
  .next { s with
    v := loadRegisters s.mem s.i s.v (x.toNat + 1)
    i := indirect s.i (x.toNat + 1) }.nextInstr

end Sys2Proof.Machine
end

