-- ==== Sys2Proof/Machine/Keys.lean ====
section
/-! DEFINITION. Keys and timers (44_timers_input R192 to R197). -/

namespace Sys2Proof.Machine

/-- SKP Vx: skip if key Vx is held (R192). -/
def execSkp (x : Nibble) (s : State) : Result := .next (s.skipIf (held s.input (s.reg x)))

/-- SKNP Vx: skip if key Vx is not held (R193). -/
def execSknp (x : Nibble) (s : State) : Result := .next (s.skipIf (!held s.input (s.reg x)))

/-- LD Vx,DT (R194). -/
def execLdVxDt (x : Nibble) (s : State) : Result := .next (s.setReg x s.dt).nextInstr

/-- LD Vx,K: with no key held, status <- Waiting and nothing else; else the lowest held key (R195). -/
def execLdVxK (x : Nibble) (s : State) : Result :=
  if s.input = 0 then .next { s with status := .waiting } else .next (s.setReg x (lowest s.input)).nextInstr

/-- LD DT,Vx (R196). -/
def execLdDtVx (x : Nibble) (s : State) : Result := .next { s with dt := s.reg x }.nextInstr

/-- LD ST,Vx (R197). -/
def execLdStVx (x : Nibble) (s : State) : Result := .next { s with st := s.reg x }.nextInstr

end Sys2Proof.Machine
end

