-- ==== Sys2Proof/Machine/HostOps.lean ====
section
/-! DEFINITION. The instruction cycle and the host-facing operations (40_control_flow R110, 60_exceptions R220 to R232). -/

namespace Sys2Proof.Machine

/-- Tick: while the latch is set nothing happens; else fetch at pc, decode, status <- Running, execute
(40_control_flow R110, 60_exceptions R213, R227). -/
def tick (s : State) : Result :=
  if s.faulted then .next s else exec (decodeWord (s.fetchWord s.pc)) { s with status := .running }

/-- A timer toward 0, never below (60_exceptions R220). -/
def countDown (t : Byte) : Byte := if t = 0 then 0 else t - 1

/-- TimerTick: both timers, independently, whatever the status (60_exceptions R220, R228). -/
def State.timerTick (s : State) : State := { s with dt := countDown s.dt, st := countDown s.st }

/-- Reset: every element at its reset value, whatever the state was (60 R229, 70 R240). The parameters go on: the draws
stay fresh (log 2) and what the host does next stands (log 3). -/
def State.hostReset (s : State) (font : Font) : State :=
  { State.resetWith font with draws := s.draws, schedule := s.schedule, unending := s.unending }

/-- The most bytes a Load may hold: 4096 - 512 (60_exceptions R230). -/
def maxProgram : Nat := 3584

/-- Load: byte k of the program to M[0x200 + k]; refused over 3584 bytes (20_memory R69, 60 R230, 92 D20). -/
def State.load (s : State) (program : List Byte) : Result :=
  if program.length ≤ maxProgram then .next { s with mem := Memory.writeBytes s.mem 0x200 program }
  else .refused (.loadTooLong program.length)

/-- SetInput: input <- m and nothing else (60_exceptions R231). -/
def State.setInput (s : State) (m : Word) : State := { s with input := m }

/-- One host operation (60_exceptions R226). -/
def perform (op : HostOp) (s : State) : Result :=
  match op with
  | .tick => tick s
  | .timerTick => .next s.timerTick
  | .reset font => .next (s.hostReset font)
  | .load program => s.load program
  | .setInput m => .next (s.setInput m)

/-- The operation the host invokes once none is listed: the first of its cycle, a Tick where the cycle names none, or
any operation (92 D18; log 3). -/
def Unending.next : Unending → HostOp
  | .cycle ops => ops.headD .tick
  | .free turn => Config.hostOp turn

/-- The operation the host invokes next: the first one listed, else the next of its unending schedule (log 3). -/
def State.nextOp (s : State) : HostOp :=
  match s.schedule with
  | op :: _ => op
  | [] => s.unending.next

/-- The operations listed after the next one is taken off; one round of a cycle is listed as it begins (log 3). -/
def State.scheduleAfter (s : State) : List HostOp :=
  match s.schedule, s.unending with
  | _ :: rest, _ => rest
  | [], .cycle ops => ops.tail
  | [], .free _ => []

/-- The unending schedule after the next operation is taken off: a free one goes on to its next turn (log 3). -/
def State.unendingAfter (s : State) : Unending :=
  match s.schedule, s.unending with
  | [], .free turn => .free (turn + 1)
  | [], .cycle ops => .cycle ops
  | _ :: _, unending => unending

/-- The state with the next host operation taken off: only what the host does later changes (log 3). -/
def State.takeOp (s : State) : State := { s with schedule := s.scheduleAfter, unending := s.unendingAfter }

/-- The next host operation, performed on the state it was taken off. -/
def runNext (s : State) : Result := perform s.nextOp s.takeOp

/-- A tick and a timer tick presented together: the tick first (60_exceptions R216, 92 D18). -/
def presentedTogether : List HostOp := [.tick, .timerTick]

/-- The host's read of pixel (px, py), 0 <= px < 64, 0 <= py < 32: bit 0x80 >> (px mod 8) of FB[8 py + px div 8]
(60_exceptions R232, 10_state R33). -/
def hostPixel (fb : Framebuffer) (px py : Nat) : Bool :=
  (Framebuffer.get fb (8 * py + px / 8)).getLsbD (7 - px % 8)

/-- The host's read of the word at an address, for disassembly; it changes nothing (60 R232, 30_encoding R101). -/
def hostDisassemble (s : State) (a : Word) : Instr := decodeWord (s.fetchWord a)

end Sys2Proof.Machine
end

