-- ==== Sys2Proof/Machine/Step.lean ====
section
/-! DEFINITION. One step: the host's next operation, by its schedule (log 3). -/

namespace Sys2Proof.Machine

/-- One step of the machine (60_exceptions R226). -/
def step (s : State) : Host.Outcome State Fault Refusal := runNext s

/-- The state whose next step fetches and runs the instruction with these table bits (log 5). -/
def State.withFetchWord (s : State) (nbits w : Nat) : State := s.placeWord (tableWord nbits w)

end Sys2Proof.Machine
end

