-- ==== Sys2Proof/Safety.lean ====
section
/-! DEFINITION. What claims are stated in: the invariant of the machine, the footprint of each instruction (10_state R42),
and the end of a run (70_reset_and_hazards R255). -/

namespace Sys2Proof.Machine

/-- sp is one of 0, 2, ..., 64 (10_state R29, 20_memory R62). -/
abbrev StackBounded (s : State) : Prop := s.sp.toNat ≤ 64 ∧ s.sp.toNat % 2 = 0

/-- Is this status Faulted(cause)? (60_exceptions R214). -/
def Status.isFaulted : Status → Bool
  | .faulted _ => true
  | .running => false
  | .waiting => false

/-- The latch is set exactly while the status is Faulted(cause) (60_exceptions R212 to R214). -/
abbrev LatchAgrees (s : State) : Prop := s.faulted = s.status.isFaulted

/-- The invariant: the memory in its canonical form, sp in {0, 2, ..., 64}, latch and status in agreement. -/
structure Inv (s : State) : Prop where
  memory : Memory.wf s.mem
  stack : StackBounded s
  latch : LatchAgrees s

/-- The registers an instruction writes (10_state R42, column V; VF as a flag: R22). -/
def Instr.regsWritten : Instr → List Nibble
  | .ldByte x _ | .addByte x _ | .ldReg x _ | .orReg x _ | .andReg x _ | .xorReg x _ | .rnd x _ | .ldVxDt x
  | .ldVxK x => [x]
  | .addReg x _ | .subReg x _ | .shr x _ | .subnReg x _ | .shl x _ => [x, vf]
  | .drw _ _ _ => [vf]
  | .loadRegs x => (List.range (x.toNat + 1)).map (BitVec.ofNat 4)
  | _ => []

/-- The instructions that write I (10_state R42, column I). -/
def Instr.writesIndex : Instr → Bool
  | .ldI _ | .addI _ | .ldF _ | .storeRegs _ | .loadRegs _ => true
  | _ => false

/-- The instructions that write sp or the stack, and that alone can raise StackFault (10_state R42, 60_exceptions R210). -/
def Instr.usesStack : Instr → Bool
  | .ret | .call _ => true
  | _ => false

/-- The memory addresses an instruction writes, from the state before it (10_state R42, column M; 42 R158): computed by
indirect, as the meanings compute them. -/
def Instr.addressesWritten (s : State) : Instr → List Nat
  | .ldB _ => (List.range 3).map (fun k => physical (indirect s.i k))
  | .storeRegs x => (List.range (x.toNat + 1)).map (fun k => physical (indirect s.i k))
  | _ => []

/-- From s to t nothing changed but pc and what 10_state R42 lists as written by the instruction. -/
structure WritesOnly (i : Instr) (s t : State) : Prop where
  regs : ∀ r, r ∉ Instr.regsWritten i → t.reg r = s.reg r
  index : Instr.writesIndex i = false → t.i = s.i
  stack : Instr.usesStack i = false → t.stack = s.stack ∧ t.sp = s.sp ∧ t.faulted = s.faulted
  delay : (∀ x, i ≠ .ldDtVx x) → t.dt = s.dt
  sound : (∀ x, i ≠ .ldStVx x) → t.st = s.st
  screen : i ≠ .cls → (∀ x y n, i ≠ .drw x y n) → t.fb = s.fb
  memory : ∀ a, physical a ∉ Instr.addressesWritten s i → t.memRead a = s.memRead a
  keys : t.input = s.input
  status : Instr.usesStack i = false → (∀ x, i ≠ .ldVxK x) → t.status = s.status
  draws : (∀ x kk, i ≠ .rnd x kk) → t.draws = s.draws
  schedule : t.schedule = s.schedule
  unending : t.unending = s.unending

/-- The pc k bytes on, modulo 65536 (40_control_flow R112). -/
def State.pcPlus (s : State) (k : Nat) : Word := BitVec.ofNat 16 ((s.pc.toNat + k) % 65536)

/-- Instruction i completes, advances 2, leaves each register r holding regs r, and changes nothing else. -/
def SetsRegisters (i : Instr) (s : State) (regs : Nibble → Byte) : Prop :=
  ∃ t, exec i s = .next t ∧ t = { s with v := t.v, pc := s.pcPlus 2 } ∧ ∀ r, t.reg r = regs r

/-- The end of a run: not faulted, Running, and the next word a JP to its own address (70_reset_and_hazards R255,
92 D23). -/
abbrev ended (s : State) : Prop :=
  s.faulted = false ∧ s.status = .running ∧ s.fetchWord s.pc = 0x1000#16 ||| (s.pc &&& 0x0FFF#16) ∧ s.pc.toNat ≤ 0x0FFF

/-- The host operation about to be performed is no Load of more than 3584 bytes, the host's duty (60_exceptions R233). -/
def LoadBounded (s : State) : Prop := ∀ program, s.nextOp = .load program → program.length ≤ maxProgram

end Sys2Proof.Machine
end

