-- ==== Sys2Proof/Certificates/Slice0/Obligations.lean ====
section
/-! DEFINITION. The statements for the provers. Arithmetic is written on natural numbers, as the spec writes it, where the
model computes on bit vectors. "D<n>" names a decision of spec/92_eei_decisions.md, "general knowledge" what the spec marks so
(91_not_in_source.md N1, N2), "log n" an entry of notes/assumptions. Wherever a statement gives the pc after
an instruction that does not jump, the amount of the advance and its width are D3 and D4. That the operation of a step is the
one State.nextOp gives, and what State.scheduleAfter and State.unendingAfter leave of it, is log 3. -/

open Sys2Proof Sys2Proof.Machine

/-! ## Encoding -/

/-- Decoding the word of a well-formed instruction gives the instruction back (30_encoding R81, R82, R90, R92; the
forms' codes are general knowledge). -/
def Obligations.DecodeOfEncode : Prop := ∀ i : Instr, i.wellFormed = true → decodeWord (encode i) = i

/-- Every word decodes to a well-formed instruction whose word it is, so decoding drops no bit (30_encoding R91; log 7). -/
def Obligations.EncodeOfDecode : Prop :=
  ∀ w : Word, (decodeWord w).wellFormed = true ∧ encode (decodeWord w) = w

/-- The row of the opcode map that selects a word is the row of the instruction it decodes to, and no other; a word that
no row selects decodes to row 35, NOP (30_encoding R92, its last sentence; D6, D7, general knowledge). -/
def Obligations.DecodeSelectsOpcodeMapRow : Prop :=
  ∀ w : Word, (∀ r ∈ opcodeRows, (r.selects w = true ↔ r.number = (decodeWord w).rowNumber)) ∧
    ((∀ r ∈ opcodeRows, r.selects w = false) ↔ decodeWord w = .nop w)

/-- The source's three decode examples (30_encoding R97). -/
def Obligations.SourceDecodeExamples : Prop :=
  decodeWord 0x00E0 = .cls ∧ decodeWord 0xA380 = .ldI 0x380 ∧ decodeWord 0xD789 = .drw 7 8 9

/-- Words of every family, written out from the encodings (95_test_vectors V-DEC-1 to V-DEC-28; D6, D7, general
knowledge). -/
def Obligations.DecodeWordsOfEachFamily : Prop :=
  decodeWord 0x00EE = .ret ∧ decodeWord 0x1ABC = .jp 0xABC ∧ decodeWord 0x3A7F = .seByte 0xA 0x7F ∧
  decodeWord 0x5AB3 = .seReg 0xA 0xB 3 ∧ decodeWord 0x8AB5 = .subReg 0xA 0xB ∧ decodeWord 0xCA0F = .rnd 0xA 0x0F ∧
  decodeWord 0xE1A1 = .sknp 1 ∧ decodeWord 0xF133 = .ldB 1 ∧ decodeWord 0xF165 = .loadRegs 1 ∧
  decodeWord 0x0123 = .nop 0x0123 ∧ decodeWord 0x8AB8 = .nop 0x8AB8 ∧ decodeWord 0xF130 = .nop 0xF130

/-! ## Fetch and the instruction cycle -/

/-- fetch_instruction: two bytes, each address modulo 4096, big-endian (20_memory R54). -/
def Obligations.FetchIsBigEndianAndWraps : Prop :=
  ∀ (s : State) (a : Word),
    (s.fetchWord a).toNat =
      256 * (s.mem.read (a.toNat % 4096)).toNat + (s.mem.read ((a.toNat + 1) % 4096)).toNat

/-- A tick of an unfaulted block runs exactly the instruction that the two bytes at pc decode to, with status Running set
first (40_control_flow R110, D4); the step takes the tick off the host's schedule (log 3). -/
def Obligations.TickRunsDecodedInstruction : Prop :=
  ∀ (s : State) (i : Instr), s.faulted = false → s.nextOp = .tick →
    decode [s.memRead s.pc, s.memRead (s.pc + 1)] = .ok (i, []) →
    step s = exec i { s with
      status := .running, schedule := s.scheduleAfter, unending := s.unendingAfter }

/-- A tick of a faulted block changes nothing (60_exceptions R213, D15). Where the status is not Faulted, which no run
reaches, that it stays too is the model's choice (log 6). -/
def Obligations.FaultedTickChangesNothing : Prop :=
  ∀ s : State, s.faulted = true → s.nextOp = .tick →
    step s = .next { s with schedule := s.scheduleAfter, unending := s.unendingAfter }

/-- What each tick reports (60_exceptions R214), for a block whose latch and status agree. -/
def Obligations.EachTickReportsItsStatus : Prop :=
  ∀ s t : State, LatchAgrees s → s.nextOp = .tick → step s = .next t →
    if s.faulted then (∃ cause, t.status = .faulted cause) ∧ t.status = s.status
    else match decodeWord (s.fetchWord s.pc) with
      | .ldVxK _ => t.status = if s.input = 0 then .waiting else .running
      | .call _ => t.status = if 62 < s.sp.toNat then .faulted .overflow else .running
      | .ret => t.status = if s.sp.toNat < 2 then .faulted .underflow else .running
      | _ => t.status = .running

/-- Execution never depends on the status of the tick before (10_state R36, D14). -/
def Obligations.StatusIsNeverRead : Prop :=
  ∀ (s : State) (b : Status), s.faulted = false → s.nextOp = .tick → step { s with status := b } = step s

/-- No instruction but LD ST,Vx sees or changes st: two runs that differ in it alone go on differing in it alone
(10_state R31, 60_exceptions R222). -/
def Obligations.SoundTimerIsNeverRead : Prop :=
  ∀ (i : Instr) (s : State) (b : Byte), (∀ x, i ≠ .ldStVx x) →
    exec i { s with st := b } =
      match exec i s with
      | .next t => .next { t with st := b }
      | .fault r => .fault r
      | .refused r => .refused r

/-! ## Whole-machine rules -/

/-- The invariant holds after reset, with any FONT. -/
def Obligations.InvariantHoldsAtReset : Prop := Inv State.reset ∧ ∀ font, Inv (State.resetWith font)

/-- Every step keeps the invariant: canonical memory, sp in {0, 2, ..., 64} (20_memory R62), latch and status in
agreement, whatever the host does next. -/
def Obligations.StepKeepsInvariant : Prop := ∀ s t : State, Inv s → step s = .next t → Inv t

/-- While the stack is in bounds and the host keeps its duty about Load, every step completes: nothing but a StackFault,
which is a next state, can go wrong (60_exceptions R210, 70 R254). -/
def Obligations.EveryStepCompletes : Prop := ∀ s : State, StackBounded s → LoadBounded s → ∃ t, step s = .next t

/-- The latch is sticky: while it is set only Reset clears it, and no other host operation touches a register, I, pc, the
stack, the screen or the status (60_exceptions R213, D15). Where the status is not Faulted, which no run reaches, that a tick
leaves it is the model's choice (log 6). -/
def Obligations.LatchIsSticky : Prop :=
  ∀ s t : State, s.faulted = true → (∀ font, s.nextOp ≠ .reset font) → step s = .next t →
    t.faulted = true ∧ t.status = s.status ∧ t.v = s.v ∧ t.i = s.i ∧ t.pc = s.pc ∧ t.stack = s.stack ∧ t.sp = s.sp ∧
      t.fb = s.fb

/-- Only CALL and RET raise StackFault, and only past their bounds (60_exceptions R210, R211, D14). -/
def Obligations.OnlyCallAndRetRaise : Prop :=
  ∀ (i : Instr) (s t : State), s.faulted = false → exec i s = .next t → t.faulted = true →
    ((∃ nnn, i = .call nnn) ∧ 62 < s.sp.toNat ∧ t.status = .faulted .overflow) ∨
      (i = .ret ∧ s.sp.toNat < 2 ∧ t.status = .faulted .underflow)

/-- The access table: an instruction writes what 10_state R42 lists for it, pc, and nothing else; memory is compared byte
by byte outside the addresses that the instruction's own operand form computes. -/
def Obligations.InstructionsWriteOnlyTheirFootprint : Prop :=
  ∀ (i : Instr) (s t : State), Memory.wf s.mem → exec i s = .next t → WritesOnly i s t

/-- From the end of a run every further tick leaves the whole state unchanged (70_reset_and_hazards R255, D23). -/
def Obligations.EndedStateIsFinal : Prop :=
  ∀ s : State, ended s → s.nextOp = .tick →
    step s = .next { s with schedule := s.scheduleAfter, unending := s.unendingAfter }

/-! ## Control flow -/

/-- NOP: advance(2) and nothing else, whatever its word (40_control_flow R114, D5). -/
def Obligations.NopAdvancesOnly : Prop := ∀ (w : Word) (s : State), exec (.nop w) s = .next { s with pc := s.pcPlus 2 }

/-- JP nnn (40_control_flow R111, R116; general knowledge). -/
def Obligations.JumpSetsPc : Prop :=
  ∀ (nnn : Addr) (s : State), exec (.jp nnn) s = .next { s with pc := BitVec.ofNat 16 nnn.toNat }

/-- JP V0,nnn: the sum, reduced to 12 bits (40_control_flow R122). -/
def Obligations.ComputedJumpAddsV0 : Prop :=
  ∀ (nnn : Addr) (s : State),
    exec (.jpV0 nnn) s = .next { s with pc := BitVec.ofNat 16 ((nnn.toNat + (s.reg 0).toNat) % 4096) }

/-- CALL nnn with room on the stack: the address of the next instruction, big-endian, at sp; sp + 2; pc = nnn; every other
stack byte and everything else kept (40_control_flow R117, 20_memory R60, D14). -/
def Obligations.CallPushesReturnAddress : Prop :=
  ∀ (nnn : Addr) (s : State), s.sp.toNat ≤ 62 → ∃ t, exec (.call nnn) s = .next t ∧
    t = { s with pc := BitVec.ofNat 16 nnn.toNat, sp := BitVec.ofNat 8 (s.sp.toNat + 2), stack := t.stack } ∧
    ∀ (j : Nat) (hj : j < 64), t.stack[j] =
      if j = s.sp.toNat then BitVec.ofNat 8 ((s.pc.toNat + 2) % 65536 / 256)
      else if j = s.sp.toNat + 1 then BitVec.ofNat 8 ((s.pc.toNat + 2) % 256)
      else s.stack[j]

/-- RET with an address on the stack: the big-endian value there, reduced to 12 bits, into pc; sp - 2; the stack bytes
and everything else kept (40_control_flow R115, 20_memory R61, D14). -/
def Obligations.RetPopsReturnAddress : Prop :=
  ∀ (s : State) (_ : 2 ≤ s.sp.toNat) (h : s.sp.toNat ≤ 64),
    exec .ret s = .next { s with
      sp := BitVec.ofNat 8 (s.sp.toNat - 2)
      pc := BitVec.ofNat 16
        ((256 * (s.stack[s.sp.toNat - 2]'(by omega)).toNat + (s.stack[s.sp.toNat - 1]'(by omega)).toNat) % 4096) }

/-- A CALL on a full stack and a RET on an empty one take StackFault: the latch and the status change and nothing else
(60_exceptions R211, R212, D14, D15). -/
def Obligations.StackFaultsChangeOnlyLatchAndStatus : Prop :=
  (∀ (nnn : Addr) (s : State), 62 < s.sp.toNat →
    exec (.call nnn) s = .next { s with faulted := true, status := .faulted .overflow }) ∧
  (∀ s : State, s.sp.toNat < 2 → exec .ret s = .next { s with faulted := true, status := .faulted .underflow })

/-- RET with sp > 64, which no run reaches, stops: the byte at sp - 1 does not exist (90_conflicts C6; the model's choice,
log 4). -/
def Obligations.RetPastTheStackStops : Prop :=
  ∀ s : State, 64 < s.sp.toNat → exec .ret s = .fault (.stackByteAbsent (s.sp.toNat - 1))

/-- Push then pop gives the value back and restores sp (20_memory R63, D14). -/
def Obligations.PushThenPopIsIdentity : Prop :=
  ∀ (s : State) (v : Word), s.sp.toNat ≤ 62 → ∃ t u, s.push v = .ok t ∧ t.pop = .value v u ∧ u = { s with stack := u.stack }

/-- CALL then RET comes back to the instruction after the CALL, with sp as it was (40_control_flow R115, R117;
95_test_vectors L1-8). -/
def Obligations.CallThenRetReturns : Prop :=
  ∀ (nnn : Addr) (s : State), s.sp.toNat ≤ 62 → ∃ t u, exec (.call nnn) s = .next t ∧ exec .ret t = .next u ∧
    u = { s with pc := BitVec.ofNat 16 ((s.pc.toNat + 2) % 4096), stack := u.stack }

/-- SE Vx,kk and SNE Vx,kk: 4 bytes on when the condition holds, else 2 (40_control_flow R118, R119, D4). -/
def Obligations.ByteSkips : Prop :=
  ∀ (x : Nibble) (kk : Byte) (s : State),
    exec (.seByte x kk) s = .next { s with pc := s.pcPlus (if s.reg x = kk then 4 else 2) } ∧
    exec (.sneByte x kk) s = .next { s with pc := s.pcPlus (if s.reg x ≠ kk then 4 else 2) }

/-- SE Vx,Vy and SNE Vx,Vy, whatever the low nibble (40_control_flow R120, R121, D7). -/
def Obligations.RegisterSkips : Prop :=
  ∀ (x y n : Nibble) (s : State),
    exec (.seReg x y n) s = .next { s with pc := s.pcPlus (if s.reg x = s.reg y then 4 else 2) } ∧
    exec (.sneReg x y n) s = .next { s with pc := s.pcPlus (if s.reg x ≠ s.reg y then 4 else 2) }

/-! ## Registers and ALU -/

/-- LD Vx,kk and LD Vx,Vy (41_register_alu R131, R133; general knowledge). -/
def Obligations.LoadsSetOneRegister : Prop :=
  ∀ (x y : Nibble) (kk : Byte) (s : State),
    SetsRegisters (.ldByte x kk) s (fun r => if r = x then kk else s.reg r) ∧
    SetsRegisters (.ldReg x y) s (fun r => if r = x then s.reg y else s.reg r)

/-- ADD Vx,kk: wraps, and VF is touched only as a destination (41_register_alu R132). -/
def Obligations.AddByteWrapsWithoutFlag : Prop :=
  ∀ (x : Nibble) (kk : Byte) (s : State),
    SetsRegisters (.addByte x kk) s
      (fun r => if r = x then BitVec.ofNat 8 (((s.reg x).toNat + kk.toNat) % 256) else s.reg r)

/-- OR, AND and XOR, with no flag (41_register_alu R134 to R136, D9; general knowledge). -/
def Obligations.LogicWritesNoFlag : Prop :=
  ∀ (x y : Nibble) (s : State),
    SetsRegisters (.orReg x y) s (fun r => if r = x then s.reg x ||| s.reg y else s.reg r) ∧
    SetsRegisters (.andReg x y) s (fun r => if r = x then s.reg x &&& s.reg y else s.reg r) ∧
    SetsRegisters (.xorReg x y) s (fun r => if r = x then s.reg x ^^^ s.reg y else s.reg r)

/-- ADD Vx,Vy: VF = 1 iff the result is below the left operand, which is iff a + b > 255 (the spec's own
derivation); with x = 0xF the result wins (41_register_alu R137). -/
def Obligations.AddSetsCarry : Prop :=
  ∀ (x y : Nibble) (s : State),
    SetsRegisters (.addReg x y) s (fun r =>
      if r = x then BitVec.ofNat 8 (((s.reg x).toNat + (s.reg y).toNat) % 256)
      else if r = 0xF then (if ((s.reg x).toNat + (s.reg y).toNat) % 256 < (s.reg x).toNat then 1 else 0)
      else s.reg r) ∧
    (((s.reg x).toNat + (s.reg y).toNat) % 256 < (s.reg x).toNat ↔ 255 < (s.reg x).toNat + (s.reg y).toNat)

/-- SUB and SUBN: VF = 1 iff the minuend is strictly greater; with x = 0xF the result wins (41_register_alu R138,
R140; 10_state R23, D8). -/
def Obligations.SubtractionsSetNoBorrow : Prop :=
  ∀ (x y : Nibble) (s : State),
    SetsRegisters (.subReg x y) s (fun r =>
      if r = x then BitVec.ofNat 8 ((256 + (s.reg x).toNat - (s.reg y).toNat) % 256)
      else if r = 0xF then (if (s.reg y).toNat < (s.reg x).toNat then 1 else 0)
      else s.reg r) ∧
    SetsRegisters (.subnReg x y) s (fun r =>
      if r = x then BitVec.ofNat 8 ((256 + (s.reg y).toNat - (s.reg x).toNat) % 256)
      else if r = 0xF then (if (s.reg x).toNat < (s.reg y).toNat then 1 else 0)
      else s.reg r)

/-- SHR and SHL: VF is the bit shifted out, whatever y; with x = 0xF the result wins (41_register_alu R139, R141;
10_state R23, D8). -/
def Obligations.ShiftsSetTheBitShiftedOut : Prop :=
  ∀ (x y : Nibble) (s : State),
    SetsRegisters (.shr x y) s (fun r =>
      if r = x then BitVec.ofNat 8 ((s.reg x).toNat / 2)
      else if r = 0xF then BitVec.ofNat 8 ((s.reg x).toNat % 2)
      else s.reg r) ∧
    SetsRegisters (.shl x y) s (fun r =>
      if r = x then BitVec.ofNat 8 ((s.reg x).toNat * 2 % 256)
      else if r = 0xF then BitVec.ofNat 8 ((s.reg x).toNat / 128)
      else s.reg r)

/-- RND Vx,kk: a fresh draw ANDed with kk, and no flag; true of every sequence of draws (41_register_alu R142, D16; the
draw is the model's free value, log 2). -/
def Obligations.RandomByteIsMasked : Prop :=
  ∀ (x : Nibble) (kk : Byte) (s : State), ∃ t, exec (.rnd x kk) s = .next t ∧
    t = { s with v := t.v, pc := s.pcPlus 2, draws := s.draws + 1 } ∧
    ∀ r, t.reg r = if r = x then Config.randomByte s.draws &&& kk else s.reg r

/-! ## Index register and memory -/

/-- LD I,nnn and LD F,Vx (42_index_memory R151, R153). -/
def Obligations.IndexLoads : Prop :=
  ∀ (nnn : Addr) (x : Nibble) (s : State),
    exec (.ldI nnn) s = .next { s with i := BitVec.ofNat 16 nnn.toNat, pc := s.pcPlus 2 } ∧
    exec (.ldF x) s = .next { s with i := BitVec.ofNat 16 ((s.reg x).toNat * 5), pc := s.pcPlus 2 }

/-- ADD I,Vx: modulo 65536, with no flag and no 12-bit mask (42_index_memory R152, D12). -/
def Obligations.AddIndexWraps : Prop :=
  ∀ (x : Nibble) (s : State), exec (.addI x) s =
    .next { s with i := BitVec.ofNat 16 ((s.i.toNat + (s.reg x).toNat) % 65536), pc := s.pcPlus 2 }

/-- BCD(v) = (v div 100, (v div 10) mod 10, v mod 10), each digit at most 9 and the first at most 2, with the source's
values (42_index_memory R154). -/
def Obligations.BcdIsTheDecimalSplit : Prop :=
  (∀ v : Byte, (bcdHundreds v).toNat = v.toNat / 100 ∧ (bcdTens v).toNat = v.toNat / 10 % 10 ∧
    (bcdOnes v).toNat = v.toNat % 10 ∧ (bcdHundreds v).toNat ≤ 2 ∧ (bcdTens v).toNat ≤ 9 ∧ (bcdOnes v).toNat ≤ 9) ∧
  [bcdHundreds 255, bcdTens 255, bcdOnes 255] = [2, 5, 5] ∧ [bcdHundreds 0, bcdTens 0, bcdOnes 0] = [0, 0, 0] ∧
  [bcdHundreds 202, bcdTens 202, bcdOnes 202] = [2, 0, 2]

/-- LD B,Vx: the three decimal digits at I, I + 1 and I + 2, each address modulo 4096; every other byte, I and everything
else kept (42_index_memory R154, R155). -/
def Obligations.BcdStoresThreeDigits : Prop :=
  ∀ (x : Nibble) (s : State), Memory.wf s.mem → ∃ t, exec (.ldB x) s = .next t ∧
    t = { s with mem := t.mem, pc := s.pcPlus 2 } ∧
    ∀ a : Word, t.memRead a =
      if a.toNat % 4096 = s.i.toNat % 4096 then BitVec.ofNat 8 ((s.reg x).toNat / 100)
      else if a.toNat % 4096 = (s.i.toNat + 1) % 4096 then BitVec.ofNat 8 ((s.reg x).toNat / 10 % 10)
      else if a.toNat % 4096 = (s.i.toNat + 2) % 4096 then BitVec.ofNat 8 ((s.reg x).toNat % 10)
      else s.memRead a

/-- LD [I],Vx: V0..Vx at I..I + x, each address modulo 4096; I + x + 1; every byte outside those and everything else
kept (42_index_memory R156). -/
def Obligations.StoreRegistersInBulk : Prop :=
  ∀ (x : Nibble) (s : State), Memory.wf s.mem → ∃ t, exec (.storeRegs x) s = .next t ∧
    t = { s with mem := t.mem, i := BitVec.ofNat 16 ((s.i.toNat + x.toNat + 1) % 65536), pc := s.pcPlus 2 } ∧
    (∀ k : Nibble, k.toNat ≤ x.toNat → t.memRead (indirect s.i k.toNat) = s.reg k) ∧
    (∀ k : Nibble, physical (indirect s.i k.toNat) = (s.i.toNat + k.toNat) % 4096) ∧
    ∀ a : Word, (∀ k : Nibble, k.toNat ≤ x.toNat → a.toNat % 4096 ≠ (s.i.toNat + k.toNat) % 4096) →
      t.memRead a = s.memRead a

/-- LD Vx,[I]: the bytes at I..I + x, each address modulo 4096, into V0..Vx; I + x + 1; the registers above Vx and
everything else kept (42_index_memory R157, D11). -/
def Obligations.LoadRegistersInBulk : Prop :=
  ∀ (x : Nibble) (s : State), ∃ t, exec (.loadRegs x) s = .next t ∧
    t = { s with v := t.v, i := BitVec.ofNat 16 ((s.i.toNat + x.toNat + 1) % 65536), pc := s.pcPlus 2 } ∧
    ∀ r : Nibble, t.reg r =
      if r.toNat ≤ x.toNat then s.mem.read ((s.i.toNat + r.toNat) % 4096) else s.reg r

/-- What LD [I],Vx stored, LD Vx,[I] from the same I gives back, whatever the registers and I hold in between
(42_index_memory R156, R157, D11). -/
def Obligations.StoreThenLoadGivesRegistersBack : Prop :=
  ∀ (x : Nibble) (s t : State) (v : Registers), Memory.wf s.mem → exec (.storeRegs x) s = .next t →
    ∃ u, exec (.loadRegs x) { t with i := s.i, v := v } = .next u ∧ u.i = t.i ∧
      ∀ r : Nibble, r.toNat ≤ x.toNat → u.reg r = s.reg r

/-- Self-modifying code: the two bytes LD [I],V1 stores are the next word fetched there (20_memory R67, D27). -/
def Obligations.StoredBytesAreFetched : Prop :=
  ∀ s : State, Memory.wf s.mem → ∃ t, exec (.storeRegs 1) s = .next t ∧
    (t.fetchWord s.i).toNat = 256 * (s.reg 0).toNat + (s.reg 1).toNat

/-! ## Display -/

/-- CLS: every framebuffer byte 0, no flag, nothing else but pc (43_display R174). -/
def Obligations.ClsBlanksTheScreen : Prop :=
  ∀ s : State, ∃ t, exec .cls s = .next t ∧ t = { s with fb := t.fb, pc := s.pcPlus 2 } ∧
    ∀ j < 256, Framebuffer.get t.fb j = 0

/-- write_pixel_row, pixel by pixel: pixel d columns right of px (columns modulo 64, row modulo 32) is XORed with bit
7 - d of the byte, for d = 0..7, and no other pixel changes (43_display R170, R172, D10). -/
def Obligations.PixelRowXorsEightPixels : Prop :=
  ∀ (fb : Framebuffer) (p : Byte) (px py qx qy : Nat), qx < 64 → qy < 32 →
    hostPixel (writePixelRow fb p px py).1 qx qy =
      (hostPixel fb qx qy ^^
        (decide (qy = py % 32) && decide ((qx + 64 - px % 64) % 64 < 8) &&
          p.getLsbD (7 - (qx + 64 - px % 64) % 64)))

/-- write_pixel_row reports a collision iff some lit pixel was cleared (43_display R173; columns past 63: D10). -/
def Obligations.CollisionIffLitPixelCleared : Prop :=
  ∀ (fb : Framebuffer) (p : Byte) (px py : Nat),
    (writePixelRow fb p px py).2 = true ↔
      ∃ qx qy, qx < 64 ∧ qy < 32 ∧ hostPixel fb qx qy = true ∧ hostPixel (writePixelRow fb p px py).1 qx qy = false

/-- At a byte-aligned column the row is a direct XOR of one byte, and the collision is old & new != 0
(43_display R176; columns past 63: D10). -/
def Obligations.AlignedRowIsByteXor : Prop :=
  ∀ (fb : Framebuffer) (p : Byte) (px py : Nat), px % 8 = 0 →
    (∀ j < 256, Framebuffer.get (writePixelRow fb p px py).1 j =
      if j = 8 * (py % 32) + px % 64 / 8 then Framebuffer.get fb j ^^^ p else Framebuffer.get fb j) ∧
    ((writePixelRow fb p px py).2 = true ↔ Framebuffer.get fb (8 * (py % 32) + px % 64 / 8) &&& p ≠ 0)

/-- DRW Vx,Vy,n: rows 0 to n - 1 in order, row r from memory byte I + r at (Vx, Vy + r), the coordinates read before VF is
written; VF = 1 iff a row collided, else 0; everything else kept (43_display R175, D8, D11). -/
def Obligations.DrawXorsTheRowsInOrder : Prop :=
  ∀ (x y n : Nibble) (s : State), ∃ t, exec (.drw x y n) s = .next t ∧
    t = { s with v := t.v, fb := t.fb, pc := s.pcPlus 2 } ∧
    (t.fb, decide (t.reg 0xF = 1)) =
      (List.range n.toNat).foldl (fun acc r =>
        let row := writePixelRow acc.1 (s.memRead (BitVec.ofNat 16 (s.i.toNat + r))) (s.reg x).toNat ((s.reg y).toNat + r)
        (row.1, acc.2 || row.2)) (s.fb, false) ∧
    (t.reg 0xF = 0 ∨ t.reg 0xF = 1) ∧ ∀ r, r ≠ 0xF → t.reg r = s.reg r

/-- Drawing the same sprite twice at the same place restores the framebuffer, and if the sprite has a lit pixel one of
the two draws reports a collision (43_display R175, corner cases; x and y not VF, which the first draw writes). -/
def Obligations.DrawTwiceRestoresTheScreen : Prop :=
  ∀ (x y n : Nibble) (s : State), x ≠ 0xF → y ≠ 0xF → ∃ t u, exec (.drw x y n) s = .next t ∧ exec (.drw x y n) t = .next u ∧
    u.fb = s.fb ∧
    ((∃ r < n.toNat, s.memRead (indirect s.i r) ≠ 0) → t.reg 0xF = 1 ∨ u.reg 0xF = 1)

/-! ## Keys and timers -/

/-- SKP and SKNP test the level of key V[x]; a key number past 15 is never held (44_timers_input R190, R192, R193,
D13). -/
def Obligations.KeySkipsTestTheLevel : Prop :=
  ∀ (x : Nibble) (s : State),
    let isHeld := (s.reg x).toNat < 16 ∧ s.input.toNat / 2 ^ (s.reg x).toNat % 2 = 1
    exec (.skp x) s = .next { s with pc := s.pcPlus (if isHeld then 4 else 2) } ∧
    exec (.sknp x) s = .next { s with pc := s.pcPlus (if isHeld then 2 else 4) }

/-- LD Vx,K: with no key held it reports Waiting and changes nothing else; with one held, V[x] is the lowest held key and
pc advances (44_timers_input R191, R195). -/
def Obligations.KeyWaitTakesTheLowestKey : Prop :=
  ∀ (x : Nibble) (s : State),
    (s.input = 0 → exec (.ldVxK x) s = .next { s with status := .waiting }) ∧
    (s.input ≠ 0 → ∃ k < 16, s.input.getLsbD k = true ∧ (∀ j < k, s.input.getLsbD j = false) ∧
      SetsRegisters (.ldVxK x) s (fun r => if r = x then BitVec.ofNat 8 k else s.reg r))

/-- A key wait polls: a waiting tick changes nothing but the status, SetInput changes input, and the next tick, with a key
held, completes the same LD Vx,K (60_exceptions R234, R231, 10_state R39, D28). -/
def Obligations.KeyWaitCompletesOnceAKeyIsHeld : Prop :=
  ∀ (x : Nibble) (m : Word) (rest : List HostOp) (s : State),
    s.faulted = false → s.input = 0 → m ≠ 0 → decodeWord (s.fetchWord s.pc) = .ldVxK x →
    s.schedule = .tick :: .setInput m :: .tick :: rest →
    ∃ t u w, step s = .next t ∧ t = { s with status := .waiting, schedule := .setInput m :: .tick :: rest } ∧
      step t = .next u ∧ u = { t with input := m, schedule := .tick :: rest } ∧
      step u = .next w ∧ w.status = .running ∧ w.pc = s.pcPlus 2 ∧
      ∃ k < 16, m.getLsbD k = true ∧ (∀ j < k, m.getLsbD j = false) ∧ w.reg x = BitVec.ofNat 8 k

/-- LD Vx,DT, LD DT,Vx and LD ST,Vx (44_timers_input R194, R196, R197). -/
def Obligations.TimerCopies : Prop :=
  ∀ (x : Nibble) (s : State),
    SetsRegisters (.ldVxDt x) s (fun r => if r = x then s.dt else s.reg r) ∧
    exec (.ldDtVx x) s = .next { s with dt := s.reg x, pc := s.pcPlus 2 } ∧
    exec (.ldStVx x) s = .next { s with st := s.reg x, pc := s.pcPlus 2 }

/-! ## Host operations -/

/-- TimerTick: dt and st each one toward 0, independently, never below, and nothing else, whatever the status
(60_exceptions R220, R228). -/
def Obligations.TimerTickCountsDown : Prop :=
  ∀ s : State, perform .timerTick s =
    .next { s with dt := BitVec.ofNat 8 (s.dt.toNat - 1), st := BitVec.ofNat 8 (s.st.toNat - 1) }

/-- A tick and a timer tick presented together: the tick first, then the countdown (60_exceptions R216, D18). -/
def Obligations.TickGoesBeforeTimerTick : Prop :=
  ∀ (rest : List HostOp) (s t : State), s.schedule = presentedTogether ++ rest →
    tick { s with schedule := .timerTick :: rest } = .next t →
    step s = .next t ∧ step t = .next { t with
      dt := BitVec.ofNat 8 (t.dt.toNat - 1), st := BitVec.ofNat 8 (t.st.toNat - 1), schedule := rest }

/-- SetInput writes input and nothing else (60_exceptions R231, D19). -/
def Obligations.SetInputWritesInputOnly : Prop :=
  ∀ (m : Word) (rest : List HostOp) (s : State), s.schedule = .setInput m :: rest →
    step s = .next { s with input := m, schedule := rest }

/-- Load: byte k of the program at 0x200 + k and every other byte kept; over 3584 bytes it is refused (60_exceptions R230,
20_memory R69, D20). -/
def Obligations.LoadCopiesTheProgram : Prop :=
  ∀ (program : List Byte) (rest : List HostOp) (s : State), Memory.wf s.mem → s.schedule = .load program :: rest →
    (program.length ≤ 3584 → ∃ t, step s = .next t ∧ t = { s with mem := t.mem, schedule := rest } ∧
      (∀ (k : Nat) (hk : k < program.length), t.mem.read (0x200 + k) = program[k]) ∧
      ∀ a : Nat, (a < 0x200 ∨ 0x200 + program.length ≤ a) → t.mem.read a = s.mem.read a) ∧
    (3584 < program.length → step s = .refused (.loadTooLong program.length))

/-- Reset, whatever the state was: every element of 10_state R41 at its value, with any FONT (70_reset_and_hazards R240,
R242, D15, D17, D22, D25); the model's draw counter and what the host does next go on (log 2, log 3). -/
def Obligations.ResetGivesTheDefaultState : Prop :=
  ∀ (font : Font) (rest : List HostOp) (s : State), s.schedule = .reset font :: rest → ∃ t, step s = .next t ∧
    (∀ r, t.reg r = 0) ∧ t.i = 0 ∧ t.pc = 0x200 ∧ (∀ (j : Nat) (hj : j < 64), t.stack[j] = 0) ∧ t.sp = 0 ∧ t.dt = 0 ∧
    t.st = 0 ∧ (∀ j < 256, Framebuffer.get t.fb j = 0) ∧ (∀ (a : Nat) (ha : a < 80), t.mem.read a = font[a]) ∧
    (∀ a, 80 ≤ a → a < 4096 → t.mem.read a = 0) ∧ t.input = 0 ∧ t.faulted = false ∧ t.status = .running ∧
    t.draws = s.draws ∧ t.schedule = rest ∧ t.unending = s.unending

/-- The machine right after reset is the default state with the default FONT (10_state R41, 70 R242; the font bytes are
PRESUMED, log 1): every element at its value, the 64 stack bytes and the 256 framebuffer bytes included, and memory holds the
font and zeros. -/
def Obligations.ResetStateHoldsTheDefaults : Prop :=
  State.resetWith defaultFont = State.reset ∧ (∀ r, State.reset.reg r = 0) ∧ State.reset.i = 0 ∧ State.reset.pc = 0x200 ∧
    (∀ (j : Nat) (hj : j < 64), State.reset.stack[j] = 0) ∧ (∀ j < 256, Framebuffer.get State.reset.fb j = 0) ∧
    State.reset.sp = 0 ∧ State.reset.dt = 0 ∧ State.reset.st = 0 ∧ State.reset.input = 0 ∧ State.reset.faulted = false ∧
    State.reset.status = .running ∧ (∀ (a : Nat) (ha : a < 80), State.reset.mem.read a = defaultFont[a]) ∧
    ∀ a, 80 ≤ a → State.reset.mem.read a = 0
end

