-- ==== Sys2Proof/Laws/Decode.lean ====
section
/-! SUPPORT. The fields of a word built from fields, and a word rebuilt from its fields. -/

namespace Sys2Proof

theorem opField_wordXKk (op x : Nibble) (kk : Byte) : opField (wordXKk op x kk) = op := by
  ext k hk; simp only [opField, wordXKk, BitVec.getElem_extractLsb', BitVec.getLsbD_append]; grind

theorem xField_wordXKk (op x : Nibble) (kk : Byte) : xField (wordXKk op x kk) = x := by
  ext k hk; simp only [xField, wordXKk, BitVec.getElem_extractLsb', BitVec.getLsbD_append]; grind

theorem kkField_wordXKk (op x : Nibble) (kk : Byte) : kkField (wordXKk op x kk) = kk := by
  ext k hk; simp only [kkField, wordXKk, BitVec.getElem_extractLsb', BitVec.getLsbD_append]; grind

theorem opField_wordXYN (op x y n : Nibble) : opField (wordXYN op x y n) = op := by
  ext k hk; simp only [opField, wordXYN, BitVec.getElem_extractLsb', BitVec.getLsbD_append]; grind

theorem xField_wordXYN (op x y n : Nibble) : xField (wordXYN op x y n) = x := by
  ext k hk; simp only [xField, wordXYN, BitVec.getElem_extractLsb', BitVec.getLsbD_append]; grind

theorem yField_wordXYN (op x y n : Nibble) : yField (wordXYN op x y n) = y := by
  ext k hk; simp only [yField, wordXYN, BitVec.getElem_extractLsb', BitVec.getLsbD_append]; grind

theorem nField_wordXYN (op x y n : Nibble) : nField (wordXYN op x y n) = n := by
  ext k hk; simp only [nField, wordXYN, BitVec.getElem_extractLsb', BitVec.getLsbD_append]; grind

theorem opField_wordNnn (op : Nibble) (nnn : Addr) : opField (wordNnn op nnn) = op := by
  ext k hk; simp only [opField, wordNnn, BitVec.getElem_extractLsb', BitVec.getLsbD_append]; grind

theorem nnnField_wordNnn (op : Nibble) (nnn : Addr) : nnnField (wordNnn op nnn) = nnn := by
  ext k hk; simp only [nnnField, wordNnn, BitVec.getElem_extractLsb', BitVec.getLsbD_append]; grind

theorem wordXKk_fields (w : Word) : wordXKk (opField w) (xField w) (kkField w) = w := by
  ext k hk
  simp only [opField, xField, kkField, wordXKk]
  grind

theorem wordXYN_fields (w : Word) : wordXYN (opField w) (xField w) (yField w) (nField w) = w := by
  ext k hk
  simp only [opField, xField, yField, nField, wordXYN]
  grind

theorem wordNnn_fields (w : Word) : wordNnn (opField w) (nnnField w) = w := by
  ext k hk
  simp only [opField, nnnField, wordNnn]
  grind

theorem joinBytes_high_low (w : Word) : joinBytes (highByte w) (lowByte w) = w := by
  ext k hk
  simp only [joinBytes, highByte, lowByte]
  grind

theorem highByte_joinBytes (hi lo : Byte) : highByte (joinBytes hi lo) = hi := by
  ext k hk; simp only [joinBytes, highByte, BitVec.getElem_extractLsb', BitVec.getLsbD_append]; grind

theorem lowByte_joinBytes (hi lo : Byte) : lowByte (joinBytes hi lo) = lo := by
  ext k hk; simp only [joinBytes, lowByte, BitVec.getElem_extractLsb', BitVec.getLsbD_append]; grind

/-- The 16 values of a 4-bit field, for a case split on op or n. -/
theorem nibble_cases (n : Nibble) : n = 0 ∨ n = 1 ∨ n = 2 ∨ n = 3 ∨ n = 4 ∨ n = 5 ∨ n = 6 ∨ n = 7 ∨ n = 8 ∨ n = 9 ∨
    n = 10 ∨ n = 11 ∨ n = 12 ∨ n = 13 ∨ n = 14 ∨ n = 15 := by
  revert n; decide

/-- The E family by its low byte (30_encoding R88). -/
theorem decodeE_cases (w : Word) :
    (kkField w = 0x9E ∧ decodeE w = .skp (xField w)) ∨ (kkField w = 0xA1 ∧ decodeE w = .sknp (xField w)) ∨
      (kkField w ≠ 0x9E ∧ kkField w ≠ 0xA1 ∧ decodeE w = .nop w) := by
  unfold decodeE
  split <;> simp_all [← BitVec.toNat_inj]

/-- The F family by its low byte (30_encoding R89). -/
theorem decodeF_cases (w : Word) :
    (kkField w = 0x07 ∧ decodeF w = .ldVxDt (xField w)) ∨ (kkField w = 0x0A ∧ decodeF w = .ldVxK (xField w)) ∨
      (kkField w = 0x15 ∧ decodeF w = .ldDtVx (xField w)) ∨ (kkField w = 0x18 ∧ decodeF w = .ldStVx (xField w)) ∨
      (kkField w = 0x1E ∧ decodeF w = .addI (xField w)) ∨ (kkField w = 0x29 ∧ decodeF w = .ldF (xField w)) ∨
      (kkField w = 0x33 ∧ decodeF w = .ldB (xField w)) ∨ (kkField w = 0x55 ∧ decodeF w = .storeRegs (xField w)) ∨
      (kkField w = 0x65 ∧ decodeF w = .loadRegs (xField w)) ∨
      (kkField w ≠ 0x07 ∧ kkField w ≠ 0x0A ∧ kkField w ≠ 0x15 ∧ kkField w ≠ 0x18 ∧ kkField w ≠ 0x1E ∧ kkField w ≠ 0x29 ∧
        kkField w ≠ 0x33 ∧ kkField w ≠ 0x55 ∧ kkField w ≠ 0x65 ∧ decodeF w = .nop w) := by
  unfold decodeF
  split <;> simp_all [← BitVec.toNat_inj]

/-- The decoder reads one instruction from any two bytes (30_encoding R80, R91). -/
theorem decode_two (hi lo : Byte) (rest : List Byte) :
    decode (hi :: lo :: rest) = .ok (decodeWord (joinBytes hi lo), rest) := rfl

/-- What the decoder reads from a table numeral is what decodeWord gives for its word. -/
theorem decodeTableWord_eq (nbits w : Nat) : decodeTableWord nbits w = some (decodeWord (tableWord nbits w)) := by
  simp only [decodeTableWord, decode_two, joinBytes_high_low]

end Sys2Proof
end

