-- ==== Sys2Proof/Laws/State.lean ====
section
/-! SUPPORT. One lemma per field per state update, each true by rfl, so that no proof unfolds a record update. -/

namespace Sys2Proof.Machine

variable (s : State)

@[simp] theorem State.nextInstr_eq : s.nextInstr = s.advance 2 := rfl

theorem State.skipIf_eq (c : Bool) : s.skipIf c = s.advance (if c then 4 else 2) := rfl

@[simp] theorem State.setReg_v (x : Nibble) (b : Byte) : (s.setReg x b).v = Registers.put s.v x b := rfl
@[simp] theorem State.setReg_i (x : Nibble) (b : Byte) : (s.setReg x b).i = s.i := rfl
@[simp] theorem State.setReg_pc (x : Nibble) (b : Byte) : (s.setReg x b).pc = s.pc := rfl
@[simp] theorem State.setReg_stack (x : Nibble) (b : Byte) : (s.setReg x b).stack = s.stack := rfl
@[simp] theorem State.setReg_sp (x : Nibble) (b : Byte) : (s.setReg x b).sp = s.sp := rfl
@[simp] theorem State.setReg_dt (x : Nibble) (b : Byte) : (s.setReg x b).dt = s.dt := rfl
@[simp] theorem State.setReg_st (x : Nibble) (b : Byte) : (s.setReg x b).st = s.st := rfl
@[simp] theorem State.setReg_fb (x : Nibble) (b : Byte) : (s.setReg x b).fb = s.fb := rfl
@[simp] theorem State.setReg_mem (x : Nibble) (b : Byte) : (s.setReg x b).mem = s.mem := rfl
@[simp] theorem State.setReg_input (x : Nibble) (b : Byte) : (s.setReg x b).input = s.input := rfl
@[simp] theorem State.setReg_faulted (x : Nibble) (b : Byte) : (s.setReg x b).faulted = s.faulted := rfl
@[simp] theorem State.setReg_status (x : Nibble) (b : Byte) : (s.setReg x b).status = s.status := rfl
@[simp] theorem State.setReg_draws (x : Nibble) (b : Byte) : (s.setReg x b).draws = s.draws := rfl
@[simp] theorem State.setReg_schedule (x : Nibble) (b : Byte) : (s.setReg x b).schedule = s.schedule := rfl
@[simp] theorem State.setReg_unending (x : Nibble) (b : Byte) : (s.setReg x b).unending = s.unending := rfl

@[simp] theorem State.memWrite_v (a : Word) (b : Byte) : (s.memWrite a b).v = s.v := rfl
@[simp] theorem State.memWrite_i (a : Word) (b : Byte) : (s.memWrite a b).i = s.i := rfl
@[simp] theorem State.memWrite_pc (a : Word) (b : Byte) : (s.memWrite a b).pc = s.pc := rfl
@[simp] theorem State.memWrite_stack (a : Word) (b : Byte) : (s.memWrite a b).stack = s.stack := rfl
@[simp] theorem State.memWrite_sp (a : Word) (b : Byte) : (s.memWrite a b).sp = s.sp := rfl
@[simp] theorem State.memWrite_dt (a : Word) (b : Byte) : (s.memWrite a b).dt = s.dt := rfl
@[simp] theorem State.memWrite_st (a : Word) (b : Byte) : (s.memWrite a b).st = s.st := rfl
@[simp] theorem State.memWrite_fb (a : Word) (b : Byte) : (s.memWrite a b).fb = s.fb := rfl
@[simp] theorem State.memWrite_mem (a : Word) (b : Byte) : (s.memWrite a b).mem = s.mem.writeAt a b := rfl
@[simp] theorem State.memWrite_input (a : Word) (b : Byte) : (s.memWrite a b).input = s.input := rfl
@[simp] theorem State.memWrite_faulted (a : Word) (b : Byte) : (s.memWrite a b).faulted = s.faulted := rfl
@[simp] theorem State.memWrite_status (a : Word) (b : Byte) : (s.memWrite a b).status = s.status := rfl
@[simp] theorem State.memWrite_draws (a : Word) (b : Byte) : (s.memWrite a b).draws = s.draws := rfl
@[simp] theorem State.memWrite_schedule (a : Word) (b : Byte) : (s.memWrite a b).schedule = s.schedule := rfl
@[simp] theorem State.memWrite_unending (a : Word) (b : Byte) : (s.memWrite a b).unending = s.unending := rfl

@[simp] theorem State.advance_v (k : Word) : (s.advance k).v = s.v := rfl
@[simp] theorem State.advance_i (k : Word) : (s.advance k).i = s.i := rfl
@[simp] theorem State.advance_pc (k : Word) : (s.advance k).pc = s.pc + k := rfl
@[simp] theorem State.advance_stack (k : Word) : (s.advance k).stack = s.stack := rfl
@[simp] theorem State.advance_sp (k : Word) : (s.advance k).sp = s.sp := rfl
@[simp] theorem State.advance_dt (k : Word) : (s.advance k).dt = s.dt := rfl
@[simp] theorem State.advance_st (k : Word) : (s.advance k).st = s.st := rfl
@[simp] theorem State.advance_fb (k : Word) : (s.advance k).fb = s.fb := rfl
@[simp] theorem State.advance_mem (k : Word) : (s.advance k).mem = s.mem := rfl
@[simp] theorem State.advance_input (k : Word) : (s.advance k).input = s.input := rfl
@[simp] theorem State.advance_faulted (k : Word) : (s.advance k).faulted = s.faulted := rfl
@[simp] theorem State.advance_status (k : Word) : (s.advance k).status = s.status := rfl
@[simp] theorem State.advance_draws (k : Word) : (s.advance k).draws = s.draws := rfl
@[simp] theorem State.advance_schedule (k : Word) : (s.advance k).schedule = s.schedule := rfl
@[simp] theorem State.advance_unending (k : Word) : (s.advance k).unending = s.unending := rfl

@[simp] theorem State.jumpTo_v (a : Word) : (s.jumpTo a).v = s.v := rfl
@[simp] theorem State.jumpTo_i (a : Word) : (s.jumpTo a).i = s.i := rfl
@[simp] theorem State.jumpTo_pc (a : Word) : (s.jumpTo a).pc = a &&& 0x0FFF#16 := rfl
@[simp] theorem State.jumpTo_stack (a : Word) : (s.jumpTo a).stack = s.stack := rfl
@[simp] theorem State.jumpTo_sp (a : Word) : (s.jumpTo a).sp = s.sp := rfl
@[simp] theorem State.jumpTo_dt (a : Word) : (s.jumpTo a).dt = s.dt := rfl
@[simp] theorem State.jumpTo_st (a : Word) : (s.jumpTo a).st = s.st := rfl
@[simp] theorem State.jumpTo_fb (a : Word) : (s.jumpTo a).fb = s.fb := rfl
@[simp] theorem State.jumpTo_mem (a : Word) : (s.jumpTo a).mem = s.mem := rfl
@[simp] theorem State.jumpTo_input (a : Word) : (s.jumpTo a).input = s.input := rfl
@[simp] theorem State.jumpTo_faulted (a : Word) : (s.jumpTo a).faulted = s.faulted := rfl
@[simp] theorem State.jumpTo_status (a : Word) : (s.jumpTo a).status = s.status := rfl
@[simp] theorem State.jumpTo_draws (a : Word) : (s.jumpTo a).draws = s.draws := rfl
@[simp] theorem State.jumpTo_schedule (a : Word) : (s.jumpTo a).schedule = s.schedule := rfl
@[simp] theorem State.jumpTo_unending (a : Word) : (s.jumpTo a).unending = s.unending := rfl

@[simp] theorem State.raiseStackFault_v (c : StackCause) : (s.raiseStackFault c).v = s.v := rfl
@[simp] theorem State.raiseStackFault_i (c : StackCause) : (s.raiseStackFault c).i = s.i := rfl
@[simp] theorem State.raiseStackFault_pc (c : StackCause) : (s.raiseStackFault c).pc = s.pc := rfl
@[simp] theorem State.raiseStackFault_stack (c : StackCause) : (s.raiseStackFault c).stack = s.stack := rfl
@[simp] theorem State.raiseStackFault_sp (c : StackCause) : (s.raiseStackFault c).sp = s.sp := rfl
@[simp] theorem State.raiseStackFault_dt (c : StackCause) : (s.raiseStackFault c).dt = s.dt := rfl
@[simp] theorem State.raiseStackFault_st (c : StackCause) : (s.raiseStackFault c).st = s.st := rfl
@[simp] theorem State.raiseStackFault_fb (c : StackCause) : (s.raiseStackFault c).fb = s.fb := rfl
@[simp] theorem State.raiseStackFault_mem (c : StackCause) : (s.raiseStackFault c).mem = s.mem := rfl
@[simp] theorem State.raiseStackFault_input (c : StackCause) : (s.raiseStackFault c).input = s.input := rfl
@[simp] theorem State.raiseStackFault_faulted (c : StackCause) : (s.raiseStackFault c).faulted = true := rfl
@[simp] theorem State.raiseStackFault_status (c : StackCause) : (s.raiseStackFault c).status = .faulted c := rfl
@[simp] theorem State.raiseStackFault_draws (c : StackCause) : (s.raiseStackFault c).draws = s.draws := rfl
@[simp] theorem State.raiseStackFault_schedule (c : StackCause) : (s.raiseStackFault c).schedule = s.schedule := rfl
@[simp] theorem State.raiseStackFault_unending (c : StackCause) : (s.raiseStackFault c).unending = s.unending := rfl

@[simp] theorem State.timerTick_v : (s.timerTick).v = s.v := rfl
@[simp] theorem State.timerTick_i : (s.timerTick).i = s.i := rfl
@[simp] theorem State.timerTick_pc : (s.timerTick).pc = s.pc := rfl
@[simp] theorem State.timerTick_stack : (s.timerTick).stack = s.stack := rfl
@[simp] theorem State.timerTick_sp : (s.timerTick).sp = s.sp := rfl
@[simp] theorem State.timerTick_dt : (s.timerTick).dt = countDown s.dt := rfl
@[simp] theorem State.timerTick_st : (s.timerTick).st = countDown s.st := rfl
@[simp] theorem State.timerTick_fb : (s.timerTick).fb = s.fb := rfl
@[simp] theorem State.timerTick_mem : (s.timerTick).mem = s.mem := rfl
@[simp] theorem State.timerTick_input : (s.timerTick).input = s.input := rfl
@[simp] theorem State.timerTick_faulted : (s.timerTick).faulted = s.faulted := rfl
@[simp] theorem State.timerTick_status : (s.timerTick).status = s.status := rfl
@[simp] theorem State.timerTick_draws : (s.timerTick).draws = s.draws := rfl
@[simp] theorem State.timerTick_schedule : (s.timerTick).schedule = s.schedule := rfl
@[simp] theorem State.timerTick_unending : (s.timerTick).unending = s.unending := rfl

@[simp] theorem State.setInput_v (m : Word) : (s.setInput m).v = s.v := rfl
@[simp] theorem State.setInput_i (m : Word) : (s.setInput m).i = s.i := rfl
@[simp] theorem State.setInput_pc (m : Word) : (s.setInput m).pc = s.pc := rfl
@[simp] theorem State.setInput_stack (m : Word) : (s.setInput m).stack = s.stack := rfl
@[simp] theorem State.setInput_sp (m : Word) : (s.setInput m).sp = s.sp := rfl
@[simp] theorem State.setInput_dt (m : Word) : (s.setInput m).dt = s.dt := rfl
@[simp] theorem State.setInput_st (m : Word) : (s.setInput m).st = s.st := rfl
@[simp] theorem State.setInput_fb (m : Word) : (s.setInput m).fb = s.fb := rfl
@[simp] theorem State.setInput_mem (m : Word) : (s.setInput m).mem = s.mem := rfl
@[simp] theorem State.setInput_input (m : Word) : (s.setInput m).input = m := rfl
@[simp] theorem State.setInput_faulted (m : Word) : (s.setInput m).faulted = s.faulted := rfl
@[simp] theorem State.setInput_status (m : Word) : (s.setInput m).status = s.status := rfl
@[simp] theorem State.setInput_draws (m : Word) : (s.setInput m).draws = s.draws := rfl
@[simp] theorem State.setInput_schedule (m : Word) : (s.setInput m).schedule = s.schedule := rfl
@[simp] theorem State.setInput_unending (m : Word) : (s.setInput m).unending = s.unending := rfl

@[simp] theorem State.takeOp_v : (s.takeOp).v = s.v := rfl
@[simp] theorem State.takeOp_i : (s.takeOp).i = s.i := rfl
@[simp] theorem State.takeOp_pc : (s.takeOp).pc = s.pc := rfl
@[simp] theorem State.takeOp_stack : (s.takeOp).stack = s.stack := rfl
@[simp] theorem State.takeOp_sp : (s.takeOp).sp = s.sp := rfl
@[simp] theorem State.takeOp_dt : (s.takeOp).dt = s.dt := rfl
@[simp] theorem State.takeOp_st : (s.takeOp).st = s.st := rfl
@[simp] theorem State.takeOp_fb : (s.takeOp).fb = s.fb := rfl
@[simp] theorem State.takeOp_mem : (s.takeOp).mem = s.mem := rfl
@[simp] theorem State.takeOp_input : (s.takeOp).input = s.input := rfl
@[simp] theorem State.takeOp_faulted : (s.takeOp).faulted = s.faulted := rfl
@[simp] theorem State.takeOp_status : (s.takeOp).status = s.status := rfl
@[simp] theorem State.takeOp_draws : (s.takeOp).draws = s.draws := rfl
@[simp] theorem State.takeOp_schedule : (s.takeOp).schedule = s.scheduleAfter := rfl
@[simp] theorem State.takeOp_unending : (s.takeOp).unending = s.unendingAfter := rfl

/-! What a read of a register, a memory byte or a word sees after an update elsewhere. -/

theorem State.reg_of_v {s t : State} (h : t.v = s.v) (x : Nibble) : t.reg x = s.reg x := by
  simp only [State.reg, h]

theorem State.memRead_of_mem {s t : State} (h : t.mem = s.mem) (a : Word) : t.memRead a = s.memRead a := by
  simp only [State.memRead, h]

theorem State.fetchWord_of_mem {s t : State} (h : t.mem = s.mem) (a : Word) : t.fetchWord a = s.fetchWord a := by
  simp only [State.fetchWord, State.memRead, h]

@[simp] theorem State.advance_reg (k : Word) (x : Nibble) : (s.advance k).reg x = s.reg x := rfl
@[simp] theorem State.jumpTo_reg (a : Word) (x : Nibble) : (s.jumpTo a).reg x = s.reg x := rfl
@[simp] theorem State.memWrite_reg (a : Word) (b : Byte) (x : Nibble) : (s.memWrite a b).reg x = s.reg x := rfl
@[simp] theorem State.raiseStackFault_reg (c : StackCause) (x : Nibble) : (s.raiseStackFault c).reg x = s.reg x := rfl
@[simp] theorem State.advance_memRead (k a : Word) : (s.advance k).memRead a = s.memRead a := rfl
@[simp] theorem State.jumpTo_memRead (k a : Word) : (s.jumpTo k).memRead a = s.memRead a := rfl
@[simp] theorem State.setReg_memRead (x : Nibble) (b : Byte) (a : Word) :
    (s.setReg x b).memRead a = s.memRead a := rfl
@[simp] theorem State.raiseStackFault_memRead (c : StackCause) (a : Word) :
    (s.raiseStackFault c).memRead a = s.memRead a := rfl

end Sys2Proof.Machine
end

