-- ==== Sys2Proof/Laws/Memory.lean ====
section
/-! SUPPORT. The laws of memory: a read after a write, and that every operation keeps the canonical form. -/

namespace Sys2Proof.Machine

theorem physical_lt (a : Word) : physical a < 4096 := Nat.mod_lt _ (by decide)

theorem Memory.read_cell_append (m : Memory) (a : Nat) (v : Byte) (b : Nat) :
    Memory.read (Memory.cell a v ++ m) b = if a = b ∧ v ≠ Memory.unlisted a then v else Memory.read m b := by
  unfold Memory.cell
  split
  · simp_all
  · by_cases h : b = a <;> simp_all [Memory.read, eq_comm]

/-- An address below every listed one is unlisted. -/
theorem Memory.read_of_lt (m : Memory) (a : Nat) (h : ∀ c ∈ m, a < c.1) : Memory.read m a = Memory.unlisted a := by
  induction m with
  | nil => rfl
  | cons c rest ih =>
    have h₁ := h c (by simp)
    simp only [Memory.read]
    rw [if_neg (by omega)]
    exact ih fun d hd => h d (by simp [hd])

/-- A read after a write: the byte written at its address, the old byte everywhere else. -/
theorem Memory.read_write (m : Memory) (hw : Memory.wf m) (a b : Nat) (v : Byte) :
    Memory.read (Memory.write m a v) b = if a = b then v else Memory.read m b := by
  induction m with
  | nil =>
    have h := Memory.read_cell_append [] a v b
    simp only [List.append_nil] at h
    simp only [Memory.write, h, Memory.read]
    by_cases hab : a = b <;> by_cases hv : v = Memory.unlisted a <;> simp_all
  | cons c rest ih =>
    obtain ⟨k, x⟩ := c
    obtain ⟨hp, hc⟩ := hw
    rw [List.pairwise_cons] at hp
    have below : a ≤ k → Memory.read rest a = Memory.unlisted a := fun hak =>
      Memory.read_of_lt rest a fun d hd => by have := hp.1 d hd; simp only at this; omega
    simp only [Memory.write]
    split
    · next h =>
      rw [Memory.read_cell_append]
      have := below (by omega)
      by_cases hab : a = b <;> by_cases hv : v = Memory.unlisted a <;> simp_all [Memory.read]
      omega
    · split
      · next h =>
        subst h
        rw [Memory.read_cell_append]
        have := below (by omega)
        by_cases hab : a = b <;> by_cases hv : v = Memory.unlisted a <;> simp_all [Memory.read]
        all_goals (intro h; exact absurd h.symm hab)
      · next h₁ h₂ =>
        have := ih ⟨hp.2, fun d hd => hc d (by simp [hd])⟩
        simp only [Memory.read, this]
        by_cases hab : a = b <;> by_cases hbk : b = k <;> simp_all

/-- Every address a write lists was listed before, or is the one written. -/
theorem Memory.mem_write {m : Memory} {a : Nat} {v : Byte} {c : Host.Cell} (h : c ∈ Memory.write m a v) :
    c ∈ m ∨ (c = (a, v) ∧ v ≠ Memory.unlisted a) := by
  have cell : ∀ rest : Memory, c ∈ Memory.cell a v ++ rest → c ∈ rest ∨ (c = (a, v) ∧ v ≠ Memory.unlisted a) := by
    intro rest hc
    unfold Memory.cell at hc
    split at hc <;> simp_all
    tauto
  induction m with
  | nil => exact cell [] (by simpa [Memory.write] using h)
  | cons d rest ih =>
    simp only [Memory.write] at h
    split at h
    · exact cell _ h
    · split at h
      · exact (cell _ h).imp_left (List.mem_cons_of_mem _)
      · rcases List.mem_cons.mp h with rfl | h
        · exact .inl (by simp)
        · exact (ih h).imp_left (List.mem_cons_of_mem _)

/-- A write keeps the canonical form. -/
theorem Memory.write_wf (m : Memory) (hw : Memory.wf m) (a : Nat) (ha : a < 4096) (v : Byte) :
    Memory.wf (Memory.write m a v) := by
  refine ⟨?_, fun c hc => ?_⟩
  · induction m with
    | nil => simp only [Memory.write, Memory.cell]; split <;> simp
    | cons c rest ih =>
      obtain ⟨k, x⟩ := c
      obtain ⟨hp, hc⟩ := hw
      have hp' := List.pairwise_cons.mp hp
      simp only [Memory.write, Memory.cell]
      split
      · split
        · exact hp
        · refine List.pairwise_cons.mpr ⟨fun d hd => ?_, hp⟩
          rcases List.mem_cons.mp hd with rfl | hd
          · assumption
          · have := hp'.1 d hd; simp only at this ⊢; omega
      · split
        · next h =>
          subst h
          split
          · exact hp'.2
          · exact List.pairwise_cons.mpr ⟨fun d hd => hp'.1 d hd, hp'.2⟩
        · refine List.pairwise_cons.mpr ⟨fun d hd => ?_, ih ⟨hp'.2, fun d hd => hc d (by simp [hd])⟩⟩
          rcases Memory.mem_write hd with hd | ⟨rfl, -⟩
          · exact hp'.1 d hd
          · simp only; omega
  · rcases Memory.mem_write hc with hc | ⟨rfl, hv⟩
    · exact hw.2 c hc
    · exact ⟨ha, hv⟩

theorem Memory.writeAt_wf (m : Memory) (hw : Memory.wf m) (a : Word) (v : Byte) : Memory.wf (m.writeAt a v) :=
  Memory.write_wf m hw _ (physical_lt a) v

theorem Memory.readAt_writeAt (m : Memory) (hw : Memory.wf m) (a b : Word) (v : Byte) :
    (m.writeAt a v).readAt b = if physical a = physical b then v else m.readAt b :=
  Memory.read_write m hw _ _ v

theorem Memory.writeBytes_wf (m : Memory) (hw : Memory.wf m) (a : Word) (bytes : List Byte) :
    Memory.wf (Memory.writeBytes m a bytes) := by
  induction bytes generalizing m a with
  | nil => exact hw
  | cons b rest ih => exact ih _ (Memory.writeAt_wf m hw a b) _

theorem storeRegisters_wf (v : Registers) (i : Word) (m : Memory) (hw : Memory.wf m) (count : Nat) :
    Memory.wf (storeRegisters v i m count) := by
  induction count with
  | zero => exact hw
  | succ k ih => exact Memory.writeAt_wf _ ih _ _

theorem State.memWrite_wf (s : State) (hw : Memory.wf s.mem) (a : Word) (v : Byte) : Memory.wf (s.memWrite a v).mem :=
  Memory.writeAt_wf _ hw a v

/-- The memory of every default state, whatever its FONT, is canonical. -/
theorem State.resetWith_wf (font : Font) : Memory.wf (State.resetWith font).mem :=
  Memory.writeBytes_wf [] ⟨List.Pairwise.nil, by simp⟩ _ _

theorem State.reset_wf : Memory.wf State.reset.mem := ⟨List.Pairwise.nil, by simp [State.reset]⟩

/-- Placing a word keeps the canonical form. -/
theorem State.placeWord_wf (s : State) (hw : Memory.wf s.mem) (w : Word) : Memory.wf (s.placeWord w).mem :=
  Memory.writeAt_wf _ (Memory.writeAt_wf _ hw _ _) _ _

/-- MemRead after MemWrite (20_memory R52, R53). -/
theorem State.memRead_memWrite (s : State) (hw : Memory.wf s.mem) (a b : Word) (v : Byte) :
    (s.memWrite a v).memRead b = if physical a = physical b then v else s.memRead b :=
  Memory.readAt_writeAt _ hw a b v

/-! Runs of bytes. -/

/-- The address of byte k of a transfer through I (42_index_memory R150). -/
theorem physical_indirect (i : Word) (k : Nat) : physical (indirect i k) = (i.toNat + k) % 4096 := by
  simp [physical, indirect]

/-- What storing count registers leaves at the addresses it writes (42_index_memory R156). -/
theorem storeRegisters_read (v : Registers) (i : Word) (m : Memory) (hw : Memory.wf m) (count : Nat) (hc : count ≤ 16)
    (a : Word) (k : Nibble) (hk : k.toNat < count) (ha : physical a = physical (indirect i k.toNat)) :
    (storeRegisters v i m count).readAt a = Registers.get v k := by
  induction count with
  | zero => omega
  | succ n ih =>
    have hn : (BitVec.ofNat 4 n).toNat = n := by simp; omega
    rw [storeRegisters, Memory.readAt_writeAt _ (storeRegisters_wf v i m hw n)]
    split
    · next h =>
      have : k.toNat = n := by rw [physical_indirect] at h ha; omega
      rw [← this]
      simp
    · next h => exact ih (by omega) (by have : k.toNat ≠ n := by rintro rfl; exact h ha.symm
                                        omega)

/-- Storing registers leaves every other address (42_index_memory R156). -/
theorem storeRegisters_read_other (v : Registers) (i : Word) (m : Memory) (hw : Memory.wf m) (count : Nat) (a : Word)
    (h : ∀ k < count, physical a ≠ physical (indirect i k)) : (storeRegisters v i m count).readAt a = m.readAt a := by
  induction count with
  | zero => rfl
  | succ n ih =>
    rw [storeRegisters, Memory.readAt_writeAt _ (storeRegisters_wf v i m hw n), if_neg (h n (by omega)).symm,
      ih fun k hk => h k (by omega)]

/-- What a run of bytes below 4096 leaves (20_memory R69, 70 R242). -/
theorem Memory.read_writeBytes (m : Memory) (hw : Memory.wf m) (a : Word) (bytes : List Byte)
    (fits : a.toNat + bytes.length ≤ 4096) (b : Nat) :
    Memory.read (Memory.writeBytes m a bytes) b =
      if h : a.toNat ≤ b ∧ b < a.toNat + bytes.length then bytes[b - a.toNat]'(by omega) else Memory.read m b := by
  induction bytes generalizing m a with
  | nil => simp [Memory.writeBytes]
  | cons x rest ih =>
    simp only [List.length_cons] at fits ⊢
    have haw : a.toNat % 4096 = a.toNat := Nat.mod_eq_of_lt (by omega)
    by_cases hx : rest = []
    · subst hx
      simp only [Memory.writeBytes, Memory.writeAt, Memory.read_write _ hw, physical, List.length_nil, haw]
      by_cases e : a.toNat = b
      · subst e; simp
      · rw [if_neg e, dif_neg (by omega)]
    · have : 0 < rest.length := List.length_pos_iff.mpr hx
      have ha : (a + 1).toNat = a.toNat + 1 := by simp [BitVec.toNat_add]; omega
      rw [Memory.writeBytes, ih _ (Memory.writeAt_wf _ hw _ _) _ (by omega)]
      simp only [ha, Memory.writeAt, Memory.read_write _ hw, physical, haw]
      by_cases e : a.toNat + 1 ≤ b ∧ b < a.toNat + 1 + rest.length
      · rw [dif_pos e, dif_pos (by omega), List.getElem_cons, dif_neg (by omega)]
        congr 1
      · rw [dif_neg e]
        by_cases e₂ : a.toNat = b
        · subst e₂; rw [dif_pos (by omega)]; simp
        · rw [if_neg e₂, dif_neg (by omega)]

/-- The memory of a default state: its FONT, then zeros (70_reset_and_hazards R242). -/
theorem State.resetWith_read (font : Font) (a : Nat) :
    (State.resetWith font).mem.read a = if h : a < 80 then font[a] else 0 := by
  rw [State.resetWith, Memory.read_writeBytes _ ⟨List.Pairwise.nil, by simp⟩ _ _ (by simp)]
  simp
  split
  · rfl
  · simp [Memory.read, Memory.unlisted]; omega

end Sys2Proof.Machine
end

