-- ==== Sys2Proof/Laws/Ops.lean ====
section
/-! SUPPORT. What each shared operation can do: registers, stack, pc, fetch. -/

namespace Sys2Proof.Machine

/-! Registers. -/

theorem Registers.get_put (v : Registers) (x y : Nibble) (b : Byte) :
    Registers.get (Registers.put v x b) y = if x = y then b else Registers.get v y := by
  simp [Registers.get, Registers.put, Vector.getElem_set, BitVec.toNat_inj]

@[simp] theorem State.reg_setReg (s : State) (x y : Nibble) (b : Byte) :
    (s.setReg x b).reg y = if x = y then b else s.reg y := Registers.get_put s.v x y b

/-- The destination wins over the flag (10_state R23). -/
theorem State.reg_setFlagAndReg (s : State) (flag : Byte) (x y : Nibble) (b : Byte) :
    (s.setFlagAndReg flag x b).reg y = if x = y then b else if vf = y then flag else s.reg y := by
  simp [State.setFlagAndReg]

/-- setFlagAndReg writes registers and nothing else. -/
theorem State.setFlagAndReg_eq (s : State) (flag : Byte) (x : Nibble) (b : Byte) :
    s.setFlagAndReg flag x b = { s with v := (s.setFlagAndReg flag x b).v } := rfl

/-- Two register files that read alike are the same. -/
theorem Registers.ext_get (v w : Registers) (h : ∀ x : Nibble, Registers.get v x = Registers.get w x) : v = w := by
  apply Vector.ext
  intro k hk
  simpa [Registers.get, Nat.mod_eq_of_lt hk] using h (BitVec.ofNat 4 k)

/-- What loading count registers leaves in each (42_index_memory R157). -/
theorem loadRegisters_get (m : Memory) (i : Word) (v : Registers) (count : Nat) (hc : count ≤ 16) (y : Nibble) :
    Registers.get (loadRegisters m i v count) y =
      if y.toNat < count then m.readAt (indirect i y.toNat) else Registers.get v y := by
  induction count with
  | zero => rfl
  | succ k ih =>
    rw [loadRegisters, Registers.get_put, ih (by omega)]
    have hk : (BitVec.ofNat 4 k).toNat = k := by simp; omega
    by_cases h : BitVec.ofNat 4 k = y
    · subst h; simp [hk]
    · have : y.toNat ≠ k := fun e => h (by rw [← e]; simp)
      rw [if_neg h]
      by_cases h' : y.toNat < k
      · rw [if_pos h', if_pos (by omega)]
      · rw [if_neg h', if_neg (by omega)]

/-! The pc. -/

/-- jump_to reduces its target modulo 4096 (40_control_flow R111). -/
theorem and_0x0FFF_toNat (a : Word) : (a &&& 0x0FFF#16).toNat = a.toNat % 4096 := by
  rw [BitVec.toNat_and]
  exact Nat.and_two_pow_sub_one_eq_mod a.toNat 12

/-! The stack. -/

/-- The bytes push leaves at sp and sp + 1 (20_memory R60). -/
theorem State.push_ok (s : State) (v : Word) (h : s.sp.toNat ≤ 62) :
    s.push v = .ok { s with
      stack := (s.stack.set s.sp.toNat (highByte v) (by omega)).set (s.sp.toNat + 1) (lowByte v) (by omega)
      sp := s.sp + 2 } := dif_pos h

/-- A push on a full stack raises Overflow (20_memory R60). -/
theorem State.push_full (s : State) (v : Word) (h : 62 < s.sp.toNat) : s.push v = .error .overflow :=
  dif_neg (by omega)

/-- A pop on an empty stack raises Underflow (20_memory R61). -/
theorem State.pop_empty (s : State) (h : s.sp.toNat < 2) : s.pop = .raises .underflow := if_pos h

/-- What pop reads (20_memory R61). -/
theorem State.pop_value (s : State) (h₂ : 2 ≤ s.sp.toNat) (h : s.sp.toNat ≤ 64) :
    s.pop = .value (joinBytes (s.stack[s.sp.toNat - 2]'(by omega)) (s.stack[s.sp.toNat - 1]'(by omega)))
      { s with sp := s.sp - 2 } := by
  rw [State.pop, if_neg (by omega), dif_pos h]

/-- Past the stack's end there is no byte to pop (90 C6). -/
theorem State.pop_absent (s : State) (h : 64 < s.sp.toNat) : s.pop = .absent (s.sp.toNat - 1) := by
  rw [State.pop, if_neg (by omega), dif_neg (by omega)]

/-! Fetch (20_memory R54). -/

theorem joinBytes_toNat (hi lo : Byte) : (joinBytes hi lo).toNat = 256 * hi.toNat + lo.toNat := by
  have := lo.isLt
  simp only [joinBytes, BitVec.toNat_append]
  rw [← Nat.shiftLeft_add_eq_or_of_lt (by omega), Nat.shiftLeft_eq]
  omega

/-- What place leaves at pc is what the next tick fetches. -/
theorem State.fetchWord_placeWord (s : State) (hw : Memory.wf s.mem) (w : Word) :
    (s.placeWord w).fetchWord s.pc = w := by
  have h₁ : physical (s.pc + 1) ≠ physical s.pc := by
    have := s.pc.isLt
    simp only [physical, BitVec.toNat_add]
    simp
    omega
  have hw' := State.memWrite_wf s hw s.pc (highByte w)
  have e : (s.placeWord w).fetchWord s.pc =
      ((s.memWrite s.pc (highByte w)).memWrite (s.pc + 1) (lowByte w)).fetchWord s.pc :=
    State.fetchWord_of_mem rfl _
  rw [e, State.fetchWord, State.memRead_memWrite _ hw', State.memRead_memWrite _ hw', State.memRead_memWrite _ hw,
    if_neg h₁, if_pos rfl, if_pos rfl, joinBytes_high_low]

/-! The same operations in the spec's arithmetic. -/

/-- advance(k) is the pc k bytes on, modulo 65536 (40_control_flow R112). -/
theorem State.advance_eq (s : State) (k : Nat) : s.advance (BitVec.ofNat 16 k) = { s with pc := s.pcPlus k } := by
  have : s.pc + BitVec.ofNat 16 k = s.pcPlus k := by simp [State.pcPlus, ← BitVec.toNat_inj]
  simp only [State.advance, this]

/-- jump_to is a reduction modulo 4096 (40_control_flow R111). -/
theorem State.jumpTo_eq (s : State) (a : Word) : s.jumpTo a = { s with pc := BitVec.ofNat 16 (a.toNat % 4096) } := by
  have : a &&& 0x0FFF#16 = BitVec.ofNat 16 (a.toNat % 4096) := by
    rw [← BitVec.toNat_inj, and_0x0FFF_toNat]
    simp
    omega
  simp only [State.jumpTo, this]

/-- A timer toward 0, never below (60_exceptions R220). -/
theorem countDown_eq (t : Byte) : countDown t = BitVec.ofNat 8 (t.toNat - 1) := by
  unfold countDown
  split
  · simp_all
  · next h =>
    have := t.isLt
    rw [← BitVec.toNat_inj] at h ⊢
    simp only [BitVec.toNat_sub, BitVec.toNat_ofNat] at h ⊢
    simp at h ⊢
    omega

/-- held(k) reads bit k of input, and no bit past 15 (44_timers_input R190). -/
theorem held_eq (m : Word) (k : Byte) : held m k = decide (k.toNat < 16 ∧ m.toNat / 2 ^ k.toNat % 2 = 1) := by
  simp [held, BitVec.getLsbD, Nat.testBit_eq_decide_div_mod_eq, Bool.decide_and]

/-- lowest(m) is the smallest set bit of m (44_timers_input R191). -/
theorem lowest_spec (m : Word) (h : m ≠ 0) :
    ∃ k < 16, m.getLsbD k = true ∧ (∀ j < k, m.getLsbD j = false) ∧ lowest m = BitVec.ofNat 8 k := by
  unfold lowest
  cases hf : (List.range 16).find? (fun k => m.getLsbD k) with
  | none =>
    refine absurd (BitVec.eq_of_getLsbD_eq fun i hi => ?_) h
    simpa using List.find?_eq_none.mp hf i (by simpa using hi)
  | some k =>
    obtain ⟨hk, before, after, he, hb⟩ := List.find?_eq_some_iff_append.mp hf
    have hlen : before.length = k ∧ k < 16 := by
      have : (List.range 16)[before.length]? = some k := by rw [he]; simp
      obtain ⟨h₁, h₂⟩ := List.getElem?_eq_some_iff.mp this
      simp at h₁ h₂
      omega
    refine ⟨k, hlen.2, hk, fun j hj => ?_, rfl⟩
    have h₁ : (List.range 16)[j]? = some j := List.getElem?_range (by omega)
    rw [he, List.getElem?_append_left (by omega)] at h₁
    simpa using hb j (List.mem_of_getElem? h₁)

end Sys2Proof.Machine
end

