-- ==== Sys2Proof/Laws/Display.lean ====
section
/-! SUPPORT. What the blitter's byte operations do (43_display). -/

namespace Sys2Proof.Machine

/-- XORing one framebuffer byte leaves the others (43_display R172). -/
theorem Framebuffer.get_xorAt (fb : Framebuffer) (j k : Nat) (q : Byte) :
    Framebuffer.get (Framebuffer.xorAt fb j q) k =
      if j = k ∧ k < 256 then Framebuffer.get fb k ^^^ q else Framebuffer.get fb k := by
  by_cases hk : k < 256
  · by_cases hj : j = k
    · subst hj; simp [Framebuffer.get, Framebuffer.xorAt, hk]
    · simp [Framebuffer.get, Framebuffer.xorAt, hk, hj]
  · simp [Framebuffer.get, hk]

/-- Two framebuffers that read alike are the same. -/
theorem Framebuffer.ext_get (f g : Framebuffer) (h : ∀ j < 256, Framebuffer.get f j = Framebuffer.get g j) : f = g := by
  apply Vector.ext
  intro k hk
  simpa [Framebuffer.get, hk] using h k hk

/-- A blank framebuffer reads 0 everywhere (43_display R174). -/
theorem Framebuffer.get_blank (j : Nat) : Framebuffer.get (Vector.replicate 256 0) j = 0 := by
  simp [Framebuffer.get]

/-- One more sprite row (43_display R175). -/
theorem drawRows_succ (m : Memory) (i : Word) (px py : Nat) (fb : Framebuffer) (r : Nat) :
    drawRows m i px py fb (r + 1) =
      ((writePixelRow (drawRows m i px py fb r).1 (m.readAt (indirect i r)) px (py + r)).1,
        (drawRows m i px py fb r).2 || (writePixelRow (drawRows m i px py fb r).1 (m.readAt (indirect i r)) px (py + r)).2) :=
  rfl

/-- Everything one sprite row does to the framebuffer: its left part XORed into one byte, its right part into the next
column's (43_display R172). -/
theorem writePixelRow_get (fb : Framebuffer) (p : Byte) (px py j : Nat) (hj : j < 256) :
    Framebuffer.get (writePixelRow fb p px py).1 j = Framebuffer.get fb j ^^^
      (if j = 8 * (py % 32) + px % 64 / 8 then p >>> (px % 64 % 8)
      else if j = 8 * (py % 32) + (px % 64 / 8 + 1) % 8 then shlOrZero p (8 - px % 64 % 8)
      else 0) := by
  simp only [writePixelRow, Framebuffer.get_xorAt, hj, and_true]
  by_cases h₁ : j = 8 * (py % 32) + px % 64 / 8
  · rw [if_neg (by omega), if_pos h₁.symm, if_pos h₁]
  · by_cases h₂ : j = 8 * (py % 32) + (px % 64 / 8 + 1) % 8
    · rw [if_pos h₂.symm, if_neg (fun h => h₁ h.symm), if_neg h₁, if_pos h₂]
    · rw [if_neg (fun h => h₂ h.symm), if_neg (fun h => h₁ h.symm), if_neg h₁, if_neg h₂]
      simp

/-- When a sprite row reports a collision (43_display R172). -/
theorem writePixelRow_collision (fb : Framebuffer) (p : Byte) (px py : Nat) :
    (writePixelRow fb p px py).2 = true ↔
      Framebuffer.get fb (8 * (py % 32) + px % 64 / 8) &&& p >>> (px % 64 % 8) ≠ 0 ∨
        Framebuffer.get fb (8 * (py % 32) + (px % 64 / 8 + 1) % 8) &&& shlOrZero p (8 - px % 64 % 8) ≠ 0 := by
  simp [writePixelRow]

/-- The bits of a left-shifted row (43_display R171). -/
theorem shlOrZero_getLsbD (p : Byte) (o k : Nat) (ho : o < 8) (hk : k < 8) :
    (shlOrZero p (8 - o)).getLsbD k = (decide (8 - o ≤ k) && p.getLsbD (k - (8 - o))) := by
  unfold shlOrZero
  split
  · have : o = 0 := by omega
    subst this
    simp
    omega
  · rw [BitVec.getLsbD_shiftLeft]
    simp only [hk, decide_true, Bool.true_and]
    by_cases h : k < 8 - o
    · rw [decide_eq_true h, decide_eq_false (by omega)]; rfl
    · rw [decide_eq_false h, decide_eq_true (by omega)]; rfl

end Sys2Proof.Machine
end

