-- ==== Sys2Proof/Laws/Exec.lean ====
section
/-! SUPPORT. What a tick, a host operation and a step can do, said once: callers cite these instead of unfolding. -/

namespace Sys2Proof.Machine

/-- RET's three outcomes (40_control_flow R115). -/
theorem execRet_value (s : State) (h₂ : 2 ≤ s.sp.toNat) (h : s.sp.toNat ≤ 64) :
    execRet s = .next (State.jumpTo { s with sp := s.sp - 2 }
      (joinBytes (s.stack[s.sp.toNat - 2]'(by omega)) (s.stack[s.sp.toNat - 1]'(by omega)))) := by
  simp only [execRet, State.pop_value s h₂ h]

theorem execRet_empty (s : State) (h : s.sp.toNat < 2) : execRet s = .next (s.raiseStackFault .underflow) := by
  simp only [execRet, State.pop_empty s h]

theorem execRet_absent (s : State) (h : 64 < s.sp.toNat) : execRet s = .fault (.stackByteAbsent (s.sp.toNat - 1)) := by
  simp only [execRet, State.pop_absent s h]

/-- CALL's two outcomes (40_control_flow R117). -/
theorem execCall_full (nnn : Addr) (s : State) (h : 62 < s.sp.toNat) :
    execCall nnn s = .next (s.raiseStackFault .overflow) := by
  simp only [execCall, State.push_full s _ h]

theorem execCall_pushes (nnn : Addr) (s : State) (h : s.sp.toNat ≤ 62) :
    execCall nnn s = .next (State.jumpTo { s with
      stack := (s.stack.set s.sp.toNat (highByte (s.pc + 2)) (by omega)).set (s.sp.toNat + 1) (lowByte (s.pc + 2)) (by omega)
      sp := s.sp + 2 } (address nnn)) := by
  simp only [execCall, State.push_ok s _ h]

/-! What an instruction can do. RET, CALL and LD Vx,K are the ones with more than one outcome. -/

/-- Everything RET can do (40_control_flow R115). -/
theorem exec_ret_cases {s : State} {r : Result} (h : exec .ret s = r) :
    (s.sp.toNat < 2 ∧ r = .next (s.raiseStackFault .underflow)) ∨
      (64 < s.sp.toNat ∧ r = .fault (.stackByteAbsent (s.sp.toNat - 1))) ∨
      (2 ≤ s.sp.toNat ∧ s.sp.toNat ≤ 64 ∧ ∃ target, r = .next { s with sp := s.sp - 2, pc := target }) := by
  subst h
  by_cases h₁ : s.sp.toNat < 2
  · exact .inl ⟨h₁, execRet_empty s h₁⟩
  · by_cases h₂ : s.sp.toNat ≤ 64
    · exact .inr (.inr ⟨by omega, h₂, _, execRet_value s (by omega) h₂⟩)
    · exact .inr (.inl ⟨by omega, execRet_absent s (by omega)⟩)

/-- Everything CALL can do (40_control_flow R117). -/
theorem exec_call_cases {nnn : Addr} {s : State} {r : Result} (h : exec (.call nnn) s = r) :
    (62 < s.sp.toNat ∧ r = .next (s.raiseStackFault .overflow)) ∨
      (s.sp.toNat ≤ 62 ∧ ∃ target stack, r = .next { s with sp := s.sp + 2, pc := target, stack := stack }) := by
  subst h
  by_cases h₁ : 62 < s.sp.toNat
  · exact .inl ⟨h₁, execCall_full _ s h₁⟩
  · exact .inr ⟨by omega, _, _, execCall_pushes _ s (by omega)⟩

/-- Everything LD Vx,K can do (44_timers_input R195). -/
theorem exec_ldVxK_cases {x : Nibble} {s : State} {r : Result} (h : exec (.ldVxK x) s = r) :
    (s.input = 0 ∧ r = .next { s with status := .waiting }) ∨
      (s.input ≠ 0 ∧ r = .next (s.setReg x (lowest s.input)).nextInstr) := by
  subst h
  simp only [exec, execLdVxK]
  split <;> simp_all

/-- Every other instruction completes and keeps stack, latch, status, input, host schedule and canonical memory. -/
theorem exec_of_quiet (i : Instr) (s : State) (hs : Instr.usesStack i = false) (hk : ∀ x, i ≠ .ldVxK x) :
    ∃ t, exec i s = .next t ∧ t.sp = s.sp ∧ t.stack = s.stack ∧ t.faulted = s.faulted ∧ t.status = s.status ∧
      (t.schedule = s.schedule ∧ t.unending = s.unending) ∧ t.input = s.input ∧ (Memory.wf s.mem → Memory.wf t.mem) := by
  cases i <;> try (refine ⟨_, rfl, rfl, rfl, rfl, rfl, ⟨rfl, rfl⟩, rfl, id⟩)
  case ret => simp [Instr.usesStack] at hs
  case call => simp [Instr.usesStack] at hs
  case ldVxK x => exact absurd rfl (hk x)
  case ldB =>
    exact ⟨_, rfl, rfl, rfl, rfl, rfl, ⟨rfl, rfl⟩, rfl,
      fun h => Memory.writeAt_wf _ (Memory.writeAt_wf _ (Memory.writeAt_wf _ h _ _) _ _) _ _⟩
  case storeRegs => exact ⟨_, rfl, rfl, rfl, rfl, rfl, ⟨rfl, rfl⟩, rfl, fun h => storeRegisters_wf _ _ _ h _⟩

/-- No instruction touches what the host does next. -/
theorem exec_schedule (i : Instr) (s t : State) (h : exec i s = .next t) :
    t.schedule = s.schedule ∧ t.unending = s.unending := by
  by_cases quiet : Instr.usesStack i = false ∧ ∀ x, i ≠ .ldVxK x
  · obtain ⟨u, hu, -, -, -, -, hs, -⟩ := exec_of_quiet i s quiet.1 quiet.2
    rw [h] at hu
    cases hu
    exact hs
  · cases i <;> simp [Instr.usesStack] at quiet
    · rcases exec_ret_cases h with ⟨-, e⟩ | ⟨-, e⟩ | ⟨-, -, _, e⟩ <;> cases e <;> exact ⟨rfl, rfl⟩
    · rcases exec_call_cases h with ⟨-, e⟩ | ⟨-, _, _, e⟩ <;> cases e <;> exact ⟨rfl, rfl⟩
    · rcases exec_ldVxK_cases h with ⟨-, e⟩ | ⟨-, e⟩ <;> cases e <;> exact ⟨rfl, rfl⟩

/-- A tick while the latch is set (60_exceptions R213). -/
theorem tick_of_faulted (s : State) (h : s.faulted = true) : tick s = .next s := by simp [tick, h]

/-- A tick while it is clear (40_control_flow R110). -/
theorem tick_of_not_faulted (s : State) (h : s.faulted = false) :
    tick s = exec (decodeWord (s.fetchWord s.pc)) { s with status := .running } := by simp [tick, h]

/-- A step whose next operation is a tick takes it off and ticks (log 3). -/
theorem step_of_tick (s : State) (h : s.nextOp = .tick) : step s = tick s.takeOp := by
  simp only [step, runNext, h, perform]

/-- A step performs the operation at the head of the schedule (60_exceptions R226). -/
theorem step_of_cons (s : State) (op : HostOp) (rest : List HostOp) (h : s.schedule = op :: rest) :
    step s = perform op { s with schedule := rest } := by
  simp [step, runNext, State.nextOp, State.takeOp, State.scheduleAfter, State.unendingAfter, h]

/-- With nothing listed, a step performs the first operation of the cycle and lists the rest of the round (log 3). -/
theorem step_of_cycle (s : State) (ops : List HostOp) (h : s.schedule = []) (hu : s.unending = .cycle ops) :
    step s = perform (ops.headD .tick) { s with schedule := ops.tail } := by
  simp [step, runNext, State.nextOp, State.takeOp, State.scheduleAfter, State.unendingAfter, Unending.next, h, hu]

/-- With nothing listed, a step of a free schedule performs whatever the host does at this turn (log 3). -/
theorem step_of_free (s : State) (turn : Nat) (h : s.schedule = []) (hu : s.unending = .free turn) :
    step s = perform (Config.hostOp turn) { s with unending := .free (turn + 1) } := by
  simp [step, runNext, State.nextOp, State.takeOp, State.scheduleAfter, State.unendingAfter, Unending.next, h, hu]

/-- With nothing listed and no cycle, a step is a tick (log 3). -/
theorem step_of_nil (s : State) (h : s.schedule = []) (hu : s.unending = .cycle []) : step s = tick s := by
  rw [step_of_cycle s [] h hu]
  cases s
  simp_all [perform]

/-- The word placed by withFetchWord is the instruction the next step runs (log 5). -/
theorem step_withFetchWord (s : State) (hw : Memory.wf s.mem) (nbits w : Nat) :
    step (s.withFetchWord nbits w) =
      exec (decodeWord (tableWord nbits w)) { s.withFetchWord nbits w with status := .running } := by
  rw [step_of_nil _ rfl rfl, tick_of_not_faulted _ rfl]
  congr 2
  exact State.fetchWord_placeWord s hw _

end Sys2Proof.Machine
end

