-- ==== Sys2Proof/Laws/Rows.lean ====
section
/-! SUPPORT. What the masks of the opcode map (30_encoding R92) keep of a word, in terms of its fields. -/

namespace Sys2Proof

/-- Mask 0xFFFF keeps everything. -/
theorem eq_iff_op_nnn (w p : Word) : w = p ↔ opField w = opField p ∧ nnnField w = nnnField p := by
  constructor
  · rintro rfl; exact ⟨rfl, rfl⟩
  · rintro ⟨h₁, h₂⟩; rw [← wordNnn_fields w, ← wordNnn_fields p, h₁, h₂]

/-- High nibble 0 by its whole word, and so by nnn (30_encoding R85). -/
theorem decode0_cases (w : Word) (h : opField w = 0) :
    (w = 0x00E0 ∧ decodeWord w = .cls) ∨ (w = 0x00EE ∧ decodeWord w = .ret) ∨
      (nnnField w ≠ 0xE0 ∧ nnnField w ≠ 0xEE ∧ decodeWord w = .nop w) := by
  have cls := eq_iff_op_nnn w 0x00E0
  have ret := eq_iff_op_nnn w 0x00EE
  rw [show opField 0x00E0 = 0 by decide, show nnnField 0x00E0 = 0xE0 by decide] at cls
  rw [show opField 0x00EE = 0 by decide, show nnnField 0x00EE = 0xEE by decide] at ret
  have e : decodeWord w = decode0 w := by simp [decodeWord, h]
  rw [e, decode0]
  by_cases h₁ : w = 0x00E0
  · exact .inl ⟨h₁, if_pos h₁⟩
  · by_cases h₂ : w = 0x00EE
    · exact .inr (.inl ⟨h₂, (if_neg h₁).trans (if_pos h₂)⟩)
    · exact .inr (.inr ⟨fun n => h₁ (cls.mpr ⟨h, n⟩), fun n => h₂ (ret.mpr ⟨h, n⟩), (if_neg h₁).trans (if_neg h₂)⟩)

/-- The mask of a word by fields: each field is masked alone. -/
theorem wordXKk_and (op x op' x' : Nibble) (kk kk' : Byte) :
    wordXKk op x kk &&& wordXKk op' x' kk' = wordXKk (op &&& op') (x &&& x') (kk &&& kk') := by
  ext k hk; simp only [wordXKk]; grind

theorem wordXYN_and (op x y n op' x' y' n' : Nibble) :
    wordXYN op x y n &&& wordXYN op' x' y' n' = wordXYN (op &&& op') (x &&& x') (y &&& y') (n &&& n') := by
  ext k hk; simp only [wordXYN]; grind

theorem wordNnn_and (op op' : Nibble) (nnn nnn' : Addr) :
    wordNnn op nnn &&& wordNnn op' nnn' = wordNnn (op &&& op') (nnn &&& nnn') := by
  ext k hk; simp only [wordNnn]; grind

/-- Mask 0xF000 keeps the high nibble. -/
theorem and_F000 (w : Word) : w &&& 0xF000#16 = wordNnn (opField w) 0 := by
  have h : w &&& wordNnn 0xF 0 = wordNnn (opField w &&& 0xF) (nnnField w &&& 0) := by
    rw [← wordNnn_and, wordNnn_fields]
  rw [show nnnField w &&& 0 = 0 from BitVec.and_zero, show opField w &&& 0xF = opField w from BitVec.and_allOnes] at h
  exact h

/-- Mask 0xF00F keeps the high and the low nibble. -/
theorem and_F00F (w : Word) : w &&& 0xF00F#16 = wordXYN (opField w) 0 0 (nField w) := by
  have h : w &&& wordXYN 0xF 0 0 0xF = wordXYN (opField w &&& 0xF) (xField w &&& 0) (yField w &&& 0) (nField w &&& 0xF) := by
    rw [← wordXYN_and, wordXYN_fields]
  rw [show xField w &&& 0 = 0 from BitVec.and_zero, show yField w &&& 0 = 0 from BitVec.and_zero, show opField w &&& 0xF = opField w from BitVec.and_allOnes,
    show nField w &&& 0xF = nField w from BitVec.and_allOnes] at h
  exact h

/-- Mask 0xF0FF keeps the high nibble and the low byte. -/
theorem and_F0FF (w : Word) : w &&& 0xF0FF#16 = wordXKk (opField w) 0 (kkField w) := by
  have h : w &&& wordXKk 0xF 0 0xFF = wordXKk (opField w &&& 0xF) (xField w &&& 0) (kkField w &&& 0xFF) := by
    rw [← wordXKk_and, wordXKk_fields]
  rw [show xField w &&& 0 = 0 from BitVec.and_zero, show opField w &&& 0xF = opField w from BitVec.and_allOnes,
    show kkField w &&& 0xFF = kkField w from BitVec.and_allOnes] at h
  exact h

/-! When a row of the opcode map selects a word, by the mask of the row. -/

theorem selects_F000 (k : Nat) (p w : Word) :
    (OpcodeRow.mk k p 0xF000).selects w = true ↔ opField w = opField p ∧ nnnField p = 0 := by
  have h : (OpcodeRow.mk k p 0xF000).selects w = true ↔ w &&& 0xF000#16 = p := by simp [OpcodeRow.selects]
  rw [h, and_F000, eq_iff_op_nnn, opField_wordNnn, nnnField_wordNnn, eq_comm (a := nnnField p)]

theorem selects_F00F (k : Nat) (p w : Word) :
    (OpcodeRow.mk k p 0xF00F).selects w = true ↔
      opField w = opField p ∧ nField w = nField p ∧ xField p = 0 ∧ yField p = 0 := by
  have h : (OpcodeRow.mk k p 0xF00F).selects w = true ↔ w &&& 0xF00F#16 = p := by simp [OpcodeRow.selects]
  rw [h, and_F00F]
  constructor
  · rintro rfl
    exact ⟨(opField_wordXYN ..).symm, (nField_wordXYN ..).symm, xField_wordXYN .., yField_wordXYN ..⟩
  · rintro ⟨h₁, h₂, h₃, h₄⟩
    rw [h₁, h₂, ← wordXYN_fields p, h₃, h₄, opField_wordXYN, nField_wordXYN]

theorem selects_F0FF (k : Nat) (p w : Word) :
    (OpcodeRow.mk k p 0xF0FF).selects w = true ↔ opField w = opField p ∧ kkField w = kkField p ∧ xField p = 0 := by
  have h : (OpcodeRow.mk k p 0xF0FF).selects w = true ↔ w &&& 0xF0FF#16 = p := by simp [OpcodeRow.selects]
  rw [h, and_F0FF]
  constructor
  · rintro rfl
    exact ⟨(opField_wordXKk ..).symm, (kkField_wordXKk ..).symm, xField_wordXKk ..⟩
  · rintro ⟨h₁, h₂, h₃⟩
    rw [h₁, h₂, ← wordXKk_fields p, h₃, opField_wordXKk, kkField_wordXKk]

theorem selects_FFFF (k : Nat) (p w : Word) : (OpcodeRow.mk k p 0xFFFF).selects w = true ↔ w = p := by
  have h : w &&& 0xFFFF#16 = w := BitVec.and_allOnes
  simp [OpcodeRow.selects, h]

end Sys2Proof
end

