-- ==== Sys2Proof/Laws/PerInstr.lean ====
section
/-! SUPPORT. One law per instruction about its encoding: of the 34 rows of the opcode map (30_encoding R92) exactly the
instruction's own row selects its word; none selects a NOP's. -/

namespace Sys2Proof

/-- Which rows select a word, by its fields: row k and no other. -/
theorem only_row_iff (w : Word) (k : Nat) :
    (∀ r ∈ opcodeRows, (r.selects w = true ↔ r.number = k)) ↔
      ((opField w = 0 ∧ nnnField w = 0xe0) ↔ 1 = k) ∧ ((opField w = 0 ∧ nnnField w = 0xee) ↔ 2 = k) ∧ ((opField w = 1) ↔ 3 = k) ∧
      ((opField w = 2) ↔ 4 = k) ∧ ((opField w = 3) ↔ 5 = k) ∧ ((opField w = 4) ↔ 6 = k) ∧
      ((opField w = 5) ↔ 7 = k) ∧ ((opField w = 6) ↔ 8 = k) ∧ ((opField w = 7) ↔ 9 = k) ∧
      ((opField w = 8 ∧ nField w = 0x0) ↔ 10 = k) ∧ ((opField w = 8 ∧ nField w = 0x1) ↔ 11 = k) ∧ ((opField w = 8 ∧ nField w = 0x2) ↔ 12 = k) ∧
      ((opField w = 8 ∧ nField w = 0x3) ↔ 13 = k) ∧ ((opField w = 8 ∧ nField w = 0x4) ↔ 14 = k) ∧ ((opField w = 8 ∧ nField w = 0x5) ↔ 15 = k) ∧
      ((opField w = 8 ∧ nField w = 0x6) ↔ 16 = k) ∧ ((opField w = 8 ∧ nField w = 0x7) ↔ 17 = k) ∧ ((opField w = 8 ∧ nField w = 0xe) ↔ 18 = k) ∧
      ((opField w = 9) ↔ 19 = k) ∧ ((opField w = 10) ↔ 20 = k) ∧ ((opField w = 11) ↔ 21 = k) ∧
      ((opField w = 12) ↔ 22 = k) ∧ ((opField w = 13) ↔ 23 = k) ∧ ((opField w = 14 ∧ kkField w = 0x9e) ↔ 24 = k) ∧
      ((opField w = 14 ∧ kkField w = 0xa1) ↔ 25 = k) ∧ ((opField w = 15 ∧ kkField w = 0x7) ↔ 26 = k) ∧ ((opField w = 15 ∧ kkField w = 0xa) ↔ 27 = k) ∧
      ((opField w = 15 ∧ kkField w = 0x15) ↔ 28 = k) ∧ ((opField w = 15 ∧ kkField w = 0x18) ↔ 29 = k) ∧ ((opField w = 15 ∧ kkField w = 0x1e) ↔ 30 = k) ∧
      ((opField w = 15 ∧ kkField w = 0x29) ↔ 31 = k) ∧ ((opField w = 15 ∧ kkField w = 0x33) ↔ 32 = k) ∧ ((opField w = 15 ∧ kkField w = 0x55) ↔ 33 = k) ∧
      ((opField w = 15 ∧ kkField w = 0x65) ↔ 34 = k) := by
  simp only [opcodeRows, opcodeRowsLow, opcodeRowsAlu, opcodeRowsHigh, opcodeRowsF, List.forall_mem_append,
    List.forall_mem_cons, selects_FFFF, selects_F000, selects_F00F, selects_F0FF, eq_iff_op_nnn w, and_assoc]
  simp [opField, nField, kkField, nnnField, xField, yField]

/-- Exactly the instruction's own row of the opcode map selects its word. -/
def Laws.EncodingRow.Statement (i : Instr) : Prop :=
  i.wellFormed = true → ∀ r ∈ opcodeRows, (r.selects (encode i) = true ↔ r.number = i.rowNumber)

theorem Laws.EncodingRow.cls : Laws.EncodingRow.Statement (.cls) := by
  intro _; decide

theorem Laws.EncodingRow.ret : Laws.EncodingRow.Statement (.ret) := by
  intro _; decide

theorem Laws.EncodingRow.jp (nnn : Addr) : Laws.EncodingRow.Statement (.jp nnn) := by
  intro _; rw [only_row_iff]; simp [encode, Instr.rowNumber, opField_wordNnn]

theorem Laws.EncodingRow.call (nnn : Addr) : Laws.EncodingRow.Statement (.call nnn) := by
  intro _; rw [only_row_iff]; simp [encode, Instr.rowNumber, opField_wordNnn]

theorem Laws.EncodingRow.seByte (x : Nibble) (kk : Byte) : Laws.EncodingRow.Statement (.seByte x kk) := by
  intro _; rw [only_row_iff]; simp [encode, Instr.rowNumber, opField_wordXKk, kkField_wordXKk]

theorem Laws.EncodingRow.sneByte (x : Nibble) (kk : Byte) : Laws.EncodingRow.Statement (.sneByte x kk) := by
  intro _; rw [only_row_iff]; simp [encode, Instr.rowNumber, opField_wordXKk, kkField_wordXKk]

theorem Laws.EncodingRow.seReg (x y n : Nibble) : Laws.EncodingRow.Statement (.seReg x y n) := by
  intro _; rw [only_row_iff]; simp [encode, Instr.rowNumber, opField_wordXYN, nField_wordXYN]

theorem Laws.EncodingRow.ldByte (x : Nibble) (kk : Byte) : Laws.EncodingRow.Statement (.ldByte x kk) := by
  intro _; rw [only_row_iff]; simp [encode, Instr.rowNumber, opField_wordXKk, kkField_wordXKk]

theorem Laws.EncodingRow.addByte (x : Nibble) (kk : Byte) : Laws.EncodingRow.Statement (.addByte x kk) := by
  intro _; rw [only_row_iff]; simp [encode, Instr.rowNumber, opField_wordXKk, kkField_wordXKk]

theorem Laws.EncodingRow.ldReg (x y : Nibble) : Laws.EncodingRow.Statement (.ldReg x y) := by
  intro _; rw [only_row_iff]; simp [encode, Instr.rowNumber, opField_wordXYN, nField_wordXYN]

theorem Laws.EncodingRow.orReg (x y : Nibble) : Laws.EncodingRow.Statement (.orReg x y) := by
  intro _; rw [only_row_iff]; simp [encode, Instr.rowNumber, opField_wordXYN, nField_wordXYN]

theorem Laws.EncodingRow.andReg (x y : Nibble) : Laws.EncodingRow.Statement (.andReg x y) := by
  intro _; rw [only_row_iff]; simp [encode, Instr.rowNumber, opField_wordXYN, nField_wordXYN]

theorem Laws.EncodingRow.xorReg (x y : Nibble) : Laws.EncodingRow.Statement (.xorReg x y) := by
  intro _; rw [only_row_iff]; simp [encode, Instr.rowNumber, opField_wordXYN, nField_wordXYN]

theorem Laws.EncodingRow.addReg (x y : Nibble) : Laws.EncodingRow.Statement (.addReg x y) := by
  intro _; rw [only_row_iff]; simp [encode, Instr.rowNumber, opField_wordXYN, nField_wordXYN]

theorem Laws.EncodingRow.subReg (x y : Nibble) : Laws.EncodingRow.Statement (.subReg x y) := by
  intro _; rw [only_row_iff]; simp [encode, Instr.rowNumber, opField_wordXYN, nField_wordXYN]

theorem Laws.EncodingRow.shr (x y : Nibble) : Laws.EncodingRow.Statement (.shr x y) := by
  intro _; rw [only_row_iff]; simp [encode, Instr.rowNumber, opField_wordXYN, nField_wordXYN]

theorem Laws.EncodingRow.subnReg (x y : Nibble) : Laws.EncodingRow.Statement (.subnReg x y) := by
  intro _; rw [only_row_iff]; simp [encode, Instr.rowNumber, opField_wordXYN, nField_wordXYN]

theorem Laws.EncodingRow.shl (x y : Nibble) : Laws.EncodingRow.Statement (.shl x y) := by
  intro _; rw [only_row_iff]; simp [encode, Instr.rowNumber, opField_wordXYN, nField_wordXYN]

theorem Laws.EncodingRow.sneReg (x y n : Nibble) : Laws.EncodingRow.Statement (.sneReg x y n) := by
  intro _; rw [only_row_iff]; simp [encode, Instr.rowNumber, opField_wordXYN, nField_wordXYN]

theorem Laws.EncodingRow.ldI (nnn : Addr) : Laws.EncodingRow.Statement (.ldI nnn) := by
  intro _; rw [only_row_iff]; simp [encode, Instr.rowNumber, opField_wordNnn]

theorem Laws.EncodingRow.jpV0 (nnn : Addr) : Laws.EncodingRow.Statement (.jpV0 nnn) := by
  intro _; rw [only_row_iff]; simp [encode, Instr.rowNumber, opField_wordNnn]

theorem Laws.EncodingRow.rnd (x : Nibble) (kk : Byte) : Laws.EncodingRow.Statement (.rnd x kk) := by
  intro _; rw [only_row_iff]; simp [encode, Instr.rowNumber, opField_wordXKk, kkField_wordXKk]

theorem Laws.EncodingRow.drw (x y n : Nibble) : Laws.EncodingRow.Statement (.drw x y n) := by
  intro _; rw [only_row_iff]; simp [encode, Instr.rowNumber, opField_wordXYN, nField_wordXYN]

theorem Laws.EncodingRow.skp (x : Nibble) : Laws.EncodingRow.Statement (.skp x) := by
  intro _; rw [only_row_iff]; simp [encode, Instr.rowNumber, opField_wordXKk, kkField_wordXKk]

theorem Laws.EncodingRow.sknp (x : Nibble) : Laws.EncodingRow.Statement (.sknp x) := by
  intro _; rw [only_row_iff]; simp [encode, Instr.rowNumber, opField_wordXKk, kkField_wordXKk]

theorem Laws.EncodingRow.ldVxDt (x : Nibble) : Laws.EncodingRow.Statement (.ldVxDt x) := by
  intro _; rw [only_row_iff]; simp [encode, Instr.rowNumber, opField_wordXKk, kkField_wordXKk]

theorem Laws.EncodingRow.ldVxK (x : Nibble) : Laws.EncodingRow.Statement (.ldVxK x) := by
  intro _; rw [only_row_iff]; simp [encode, Instr.rowNumber, opField_wordXKk, kkField_wordXKk]

theorem Laws.EncodingRow.ldDtVx (x : Nibble) : Laws.EncodingRow.Statement (.ldDtVx x) := by
  intro _; rw [only_row_iff]; simp [encode, Instr.rowNumber, opField_wordXKk, kkField_wordXKk]

theorem Laws.EncodingRow.ldStVx (x : Nibble) : Laws.EncodingRow.Statement (.ldStVx x) := by
  intro _; rw [only_row_iff]; simp [encode, Instr.rowNumber, opField_wordXKk, kkField_wordXKk]

theorem Laws.EncodingRow.addI (x : Nibble) : Laws.EncodingRow.Statement (.addI x) := by
  intro _; rw [only_row_iff]; simp [encode, Instr.rowNumber, opField_wordXKk, kkField_wordXKk]

theorem Laws.EncodingRow.ldF (x : Nibble) : Laws.EncodingRow.Statement (.ldF x) := by
  intro _; rw [only_row_iff]; simp [encode, Instr.rowNumber, opField_wordXKk, kkField_wordXKk]

theorem Laws.EncodingRow.ldB (x : Nibble) : Laws.EncodingRow.Statement (.ldB x) := by
  intro _; rw [only_row_iff]; simp [encode, Instr.rowNumber, opField_wordXKk, kkField_wordXKk]

theorem Laws.EncodingRow.storeRegs (x : Nibble) : Laws.EncodingRow.Statement (.storeRegs x) := by
  intro _; rw [only_row_iff]; simp [encode, Instr.rowNumber, opField_wordXKk, kkField_wordXKk]

theorem Laws.EncodingRow.loadRegs (x : Nibble) : Laws.EncodingRow.Statement (.loadRegs x) := by
  intro _; rw [only_row_iff]; simp [encode, Instr.rowNumber, opField_wordXKk, kkField_wordXKk]

theorem Laws.EncodingRow.nop (w : Word) : Laws.EncodingRow.Statement (.nop w) := by
  intro h r hr
  simp only [Instr.wellFormed, isNopWord, Bool.not_eq_true', List.any_eq_false] at h
  have hn : ∀ r ∈ opcodeRows, r.number ≠ 35 := by decide
  exact ⟨fun e => absurd e (h r hr), fun e => absurd e (hn r hr)⟩

end Sys2Proof
end

