-- ==== Sys2Proof/Tests/Slice0.lean ====
section
/-! SUPPORT. The model's own tests. Expected values are 95_test_vectors (V-..., L1-...), or hand calculation from the rule
named; every test is one step or one decode. Last come the witnesses: for every obligation with hypotheses, states and
operands that meet them all. -/

namespace Sys2Proof.Tests

open Sys2Proof.Machine

set_option Elab.async false

/-! ## WellFormed -/

/-- The one check of WellFormed refuses a NOP that carries a word of another row; every other term is well formed. -/
theorem test_wellFormed_refuses :
    (Instr.nop 0x00E0).wellFormed = false ∧ (Instr.nop 0x1234).wellFormed = false ∧ (Instr.nop 0x8AB7).wellFormed = false ∧
      (Instr.nop 0xE19E).wellFormed = false ∧ (Instr.nop 0xF165).wellFormed = false := by decide

theorem test_wellFormed_accepts :
    (Instr.nop 0x0000).wellFormed = true ∧ (Instr.nop 0x8AB8).wellFormed = true ∧ (Instr.nop 0xE100).wellFormed = true ∧
      (Instr.nop 0xF130).wellFormed = true ∧ (Instr.drw 7 8 0).wellFormed = true := by decide

/-! ## Decode: a word of every constructor (V-DEC-1 to V-DEC-28) -/

theorem test_decode_0 : decodeWord 0x00E0 = .cls ∧ decodeWord 0x00EE = .ret ∧ decodeWord 0x00E1 = .nop 0x00E1 ∧
    decodeWord 0x0000 = .nop 0x0000 ∧ decodeWord 0x00FF = .nop 0x00FF ∧ decodeWord 0x0123 = .nop 0x0123 := by decide

theorem test_decode_jumps : decodeWord 0x1ABC = .jp 0xABC ∧ decodeWord 0x2ABC = .call 0xABC ∧
    decodeWord 0xB123 = .jpV0 0x123 := by decide

theorem test_decode_skips : decodeWord 0x3A7F = .seByte 0xA 0x7F ∧ decodeWord 0x4A7F = .sneByte 0xA 0x7F ∧
    decodeWord 0x5AB0 = .seReg 0xA 0xB 0 ∧ decodeWord 0x5AB3 = .seReg 0xA 0xB 3 ∧
    decodeWord 0x9AB0 = .sneReg 0xA 0xB 0 ∧ decodeWord 0x9ABF = .sneReg 0xA 0xB 0xF := by decide

theorem test_decode_bytes : decodeWord 0x6A7F = .ldByte 0xA 0x7F ∧ decodeWord 0x7A7F = .addByte 0xA 0x7F ∧
    decodeWord 0xCA0F = .rnd 0xA 0x0F := by decide

theorem test_decode_alu : decodeWord 0x8AB0 = .ldReg 0xA 0xB ∧ decodeWord 0x8AB1 = .orReg 0xA 0xB ∧
    decodeWord 0x8AB2 = .andReg 0xA 0xB ∧ decodeWord 0x8AB3 = .xorReg 0xA 0xB ∧ decodeWord 0x8AB4 = .addReg 0xA 0xB ∧
    decodeWord 0x8AB5 = .subReg 0xA 0xB ∧ decodeWord 0x8AB6 = .shr 0xA 0xB ∧ decodeWord 0x8AB7 = .subnReg 0xA 0xB ∧
    decodeWord 0x8ABE = .shl 0xA 0xB := by decide

theorem test_decode_alu_nop : decodeWord 0x8AB8 = .nop 0x8AB8 ∧ decodeWord 0x8AB9 = .nop 0x8AB9 ∧
    decodeWord 0x8ABA = .nop 0x8ABA ∧ decodeWord 0x8ABB = .nop 0x8ABB ∧ decodeWord 0x8ABC = .nop 0x8ABC ∧
    decodeWord 0x8ABD = .nop 0x8ABD ∧ decodeWord 0x8ABF = .nop 0x8ABF := by decide

theorem test_decode_index_display : decodeWord 0xA380 = .ldI 0x380 ∧ decodeWord 0xD789 = .drw 7 8 9 ∧
    decodeWord 0xD780 = .drw 7 8 0 := by decide

theorem test_decode_e : decodeWord 0xE19E = .skp 1 ∧ decodeWord 0xE1A1 = .sknp 1 ∧ decodeWord 0xE1A2 = .nop 0xE1A2 ∧
    decodeWord 0xE19F = .nop 0xE19F ∧ decodeWord 0xE100 = .nop 0xE100 := by decide

theorem test_decode_f : decodeWord 0xF107 = .ldVxDt 1 ∧ decodeWord 0xF10A = .ldVxK 1 ∧ decodeWord 0xF115 = .ldDtVx 1 ∧
    decodeWord 0xF118 = .ldStVx 1 ∧ decodeWord 0xF11E = .addI 1 ∧ decodeWord 0xF129 = .ldF 1 ∧ decodeWord 0xF133 = .ldB 1 ∧
    decodeWord 0xF155 = .storeRegs 1 ∧ decodeWord 0xF165 = .loadRegs 1 := by decide

theorem test_decode_f_nop : decodeWord 0xF130 = .nop 0xF130 ∧ decodeWord 0xF175 = .nop 0xF175 ∧
    decodeWord 0xF185 = .nop 0xF185 ∧ decodeWord 0xF100 = .nop 0xF100 ∧ decodeWord 0xFFFF = .nop 0xFFFF := by decide

/-- The bytes lie high first (20_memory R55); one byte alone is no instruction (30_encoding R80). -/
theorem test_decode_bytes_big_endian : decode [0xA3, 0x80, 0x77] = .ok (.ldI 0x380, [0x77]) ∧
    decode [0xA3] = .error (.truncated 1) ∧ encodeBytes (.ldI 0x380) = [0xA3, 0x80] ∧
    decodeTableWord 16 0xA380 = some (.ldI 0x380) := by decide

/-! ## One step on a small state -/

/-- The state after reset with some registers set. -/
def start (regs : List (Nibble × Byte)) : State := regs.foldl (fun s p => s.setReg p.1 p.2) State.reset

/-- Does this outcome complete in a state with the property? -/
def completes (r : Result) (p : State → Bool) : Bool :=
  match r with
  | .next t => p t
  | .fault _ => false
  | .refused _ => false

/-- What one field, or a few, hold after the word at pc has run. -/
def after {α : Type} (s : State) (w : Nat) (look : State → α) : Option α :=
  match step (s.withFetchWord 16 w) with
  | .next t => some (look t)
  | .fault _ => none
  | .refused _ => none

/-- V-CF-1, V-CF-2. -/
theorem test_jp : after (start []) 0x1345 (·.pc) = some 0x345 := by decide +kernel

/-- V-CF-4: CALL at 0x0FFE pushes 0x1000. -/
theorem test_call_pushes : after { start [] with pc := 0xFFE } 0x2400 (fun t => (t.pc, t.sp, t.stack[0], t.stack[1])) =
    some (0x400, 2, 0x10, 0x00) := by decide +kernel

/-- V-CF-8: nothing changes but the latch and the status. -/
theorem test_call_full : after { start [] with sp := 64 } 0x2300 (fun t => (t.pc, t.sp, t.faulted, t.status)) =
    some (0x200, 64, true, .faulted .overflow) := by decide +kernel

/-- V-CF-5, with the stack bytes of L1-8 left in place. -/
theorem test_ret : after { start [] with sp := 2, stack := ((Vector.replicate 64 0).set 0 0x02).set 1 0x04 } 0x00EE
    (fun t => (t.pc, t.sp, t.stack[1])) = some (0x204, 0, 0x04) := by decide +kernel

/-- V-CF-7. -/
theorem test_ret_empty : after (start []) 0x00EE (fun t => (t.pc, t.faulted, t.status)) =
    some (0x200, true, .faulted .underflow) := by decide +kernel

/-- V-CF-10, V-CF-11. -/
theorem test_seByte : after (start [(3, 0x42)]) 0x3342 (·.pc) = some 0x204 ∧
    after (start [(3, 0x41)]) 0x3342 (·.pc) = some 0x202 := by decide +kernel

/-- V-CF-12, V-CF-13. -/
theorem test_sneByte : after (start [(3, 0x42)]) 0x4342 (·.pc) = some 0x202 ∧
    after (start [(3, 0x41)]) 0x4342 (·.pc) = some 0x204 := by decide +kernel

/-- V-CF-15: the low nibble does not matter. -/
theorem test_seReg : after (start [(1, 7), (2, 7)]) 0x5127 (·.pc) = some 0x204 := by decide +kernel

/-- V-CF-16, V-CF-17. -/
theorem test_sneReg : after (start [(1, 7), (2, 8)]) 0x9120 (·.pc) = some 0x204 ∧
    after (start [(1, 7)]) 0x9110 (·.pc) = some 0x202 := by decide +kernel

/-- V-CF-19. -/
theorem test_jpV0_wraps : after (start [(0, 0xFF)]) 0xBFFF (·.pc) = some 0x0FE := by decide +kernel

/-- V-CF-23. -/
theorem test_nop : after (start []) 0xE000 (·.pc) = some 0x202 := by decide +kernel

/-- V-CF-25, V-ALU-1: pc leaves the 12-bit range. -/
theorem test_ldByte_at_top : after { start [] with pc := 0xFFE } 0x6005 (fun t => (t.reg 0, t.pc)) = some (5, 0x1000) := by
  decide +kernel

/-- V-ALU-3. -/
theorem test_addByte_wraps : after (start [(1, 0xFF), (0xF, 0x55)]) 0x7101 (fun t => (t.reg 1, t.reg 0xF)) =
    some (0x00, 0x55) := by decide +kernel

/-- V-ALU-4. -/
theorem test_ldReg : after (start [(2, 0x9C)]) 0x8120 (fun t => (t.reg 1, t.reg 2)) = some (0x9C, 0x9C) := by decide +kernel

/-- V-ALU-5. -/
theorem test_orReg : after (start [(1, 0xF0), (2, 0x0F), (0xF, 0x55)]) 0x8121 (fun t => (t.reg 1, t.reg 0xF)) =
    some (0xFF, 0x55) := by decide +kernel

/-- V-ALU-6. -/
theorem test_andReg : after (start [(1, 0xF0), (2, 0x3C), (0xF, 0x55)]) 0x8122 (fun t => (t.reg 1, t.reg 0xF)) =
    some (0x30, 0x55) := by decide +kernel

/-- V-ALU-7. -/
theorem test_xorReg : after (start [(1, 0xF0), (2, 0x3C), (0xF, 0x55)]) 0x8123 (fun t => (t.reg 1, t.reg 0xF)) =
    some (0xCC, 0x55) := by decide +kernel

/-- V-ALU-11. -/
theorem test_addReg_carry : after (start [(1, 0x80), (2, 0x80)]) 0x8124 (fun t => (t.reg 1, t.reg 0xF)) =
    some (0x00, 1) := by decide +kernel

/-- V-ALU-12: the target wins. -/
theorem test_addReg_into_vf : after (start [(1, 0x20), (0xF, 0xF0)]) 0x8F14 (·.reg 0xF) = some 0x10 := by decide +kernel

/-- V-ALU-15: strictly greater. -/
theorem test_subReg_equal : after (start [(1, 0x30), (2, 0x30), (0xF, 1)]) 0x8125 (fun t => (t.reg 1, t.reg 0xF)) =
    some (0x00, 0) := by decide +kernel

/-- V-ALU-17. -/
theorem test_subReg_into_vf : after (start [(1, 0x10), (0xF, 0x30)]) 0x8F15 (·.reg 0xF) = some 0x20 := by decide +kernel

/-- V-ALU-18, V-ALU-19: y does not matter. -/
theorem test_shr : after (start [(1, 0x05)]) 0x8106 (fun t => (t.reg 1, t.reg 0xF)) = some (0x02, 1) ∧
    after (start [(1, 0x04), (2, 0xFF)]) 0x8126 (fun t => (t.reg 1, t.reg 0xF)) = some (0x02, 0) := by decide +kernel

/-- V-ALU-23. -/
theorem test_subnReg : after (start [(1, 0x30), (2, 0x10)]) 0x8127 (fun t => (t.reg 1, t.reg 0xF)) = some (0xE0, 0) := by
  decide +kernel

/-- V-ALU-24, V-ALU-26. -/
theorem test_shl : after (start [(1, 0x81)]) 0x810E (fun t => (t.reg 1, t.reg 0xF)) = some (0x02, 1) ∧
    after (start [(0xF, 0x81)]) 0x8F0E (·.reg 0xF) = some 0x02 := by decide +kernel

/-- V-ALU-28: 0 for every draw, and the draw is taken. -/
theorem test_rnd_zero_mask : ∃ t, exec (.rnd 2 0) (start [(2, 0x77)]) = .next t ∧ t.reg 2 = 0 ∧ t.draws = 1 :=
  ⟨_, rfl, BitVec.and_zero, rfl⟩

/-- V-MEM-1. -/
theorem test_ldI : after (start []) 0xA380 (·.i) = some 0x380 := by decide +kernel

/-- V-MEM-2, V-MEM-3. -/
theorem test_addI : after { start [(2, 2)] with i := 0xFFF } 0xF21E (fun t => (t.i, t.reg 0xF)) = some (0x1001, 0) ∧
    after { start [(2, 2)] with i := 0xFFFF } 0xF21E (·.i) = some 0x0001 := by decide +kernel

/-- V-MEM-5: not reduced to a nibble. -/
theorem test_ldF : after (start [(2, 0x10)]) 0xF229 (·.i) = some 0x0050 := by decide +kernel

/-- V-MEM-9: the third byte wraps. -/
theorem test_ldB_wraps : after { start [(0, 0x7B)] with i := 0xFFE } 0xF033
    (fun t => (t.memRead 0xFFE, t.memRead 0xFFF, t.memRead 0x000, t.i)) = some (1, 2, 3, 0xFFE) := by decide +kernel

/-- V-MEM-6 (L1-4). -/
theorem test_ldB_255 : after { start [(0, 0xFF)] with i := 0x300 } 0xF033
    (fun t => (t.memRead 0x300, t.memRead 0x301, t.memRead 0x302)) = some (2, 5, 5) := by decide +kernel

/-- V-MEM-12 (L1-14): x + 1 registers and no more. -/
theorem test_storeRegs : after { start [(0, 1), (1, 2), (2, 3), (3, 4)] with i := 0x400 } 0xF255
    (fun t => (t.memRead 0x400, t.memRead 0x402, t.memRead 0x403, t.i)) = some (1, 3, 0, 0x403) := by decide +kernel

/-- V-MEM-13. -/
theorem test_storeRegs_wraps : after { start [(0, 0xAA), (1, 0xBB)] with i := 0xFFF } 0xF155
    (fun t => (t.memRead 0xFFF, t.memRead 0x000, t.i)) = some (0xAA, 0xBB, 0x1001) := by decide +kernel

/-- V-MEM-15: the bytes of glyph 0 and on, by the default FONT; VF gets the sixteenth. -/
theorem test_loadRegs_all : after { start [] with i := 0x000 } 0xFF65 (fun t => (t.reg 0, t.reg 5, t.reg 0xF, t.i)) =
    some (0xF0, 0x20, 0xF0, 0x10) := by decide +kernel

/-- V-DSP-1. -/
theorem test_cls : after { start [] with fb := (Vector.replicate 256 0).set 255 0x81 } 0x00E0
    (fun t => (Framebuffer.get t.fb 255, t.reg 0xF)) = some (0, 0) := by decide +kernel

/-- V-DSP-7: both edges wrap. -/
theorem test_drw_wraps : after ({ start [(0, 0xFF), (1, 0xFF)] with i := 0x300 }.memWrite 0x300 0xC0) 0xD011
    (fun t => (Framebuffer.get t.fb 248, Framebuffer.get t.fb 255, t.reg 0xF)) = some (0x80, 0x01, 0) := by decide +kernel

/-- V-DSP-11, over a lit pixel: VF is read as a coordinate before the collision is written to it. -/
theorem test_drw_vf : after ({ start [(0xF, 8)] with i := 0x300, fb := (Vector.replicate 256 0).set 64 0x80 }.memWrite 0x300 0x80)
    0xD0F1 (fun t => (Framebuffer.get t.fb 64, t.reg 0xF)) = some (0x00, 1) := by decide +kernel

/-- V-KEY-1, V-KEY-3. -/
theorem test_skp : after { start [(0, 5)] with input := 0x20 } 0xE09E (·.pc) = some 0x204 ∧
    after { start [(0, 0x10)] with input := 0xFFFF } 0xE09E (·.pc) = some 0x202 := by decide +kernel

/-- V-KEY-5, V-KEY-6. -/
theorem test_sknp : after { start [(0, 5)] with input := 0x20 } 0xE0A1 (·.pc) = some 0x202 ∧
    after { start [(0, 0x20)] with input := 0xFFFF } 0xE0A1 (·.pc) = some 0x204 := by decide +kernel

/-- V-KEY-7. -/
theorem test_ldVxDt : after { start [] with dt := 60 } 0xF307 (·.reg 3) = some 0x3C := by decide +kernel

/-- V-KEY-8. -/
theorem test_ldVxK_waits : after (start [(2, 0x77)]) 0xF20A (fun t => (t.reg 2, t.pc, t.status)) =
    some (0x77, 0x200, .waiting) := by decide +kernel

/-- V-KEY-9. -/
theorem test_ldVxK_lowest : after { start [] with input := 0x0208 } 0xF20A (fun t => (t.reg 2, t.pc, t.status)) =
    some (3, 0x202, .running) := by decide +kernel

/-- V-KEY-12. -/
theorem test_ldDtVx : after (start [(3, 0x3C)]) 0xF315 (fun t => (t.dt, t.st)) = some (60, 0) := by decide +kernel

/-- V-KEY-13. -/
theorem test_ldStVx : after (start [(3, 5)]) 0xF318 (fun t => (t.dt, t.st)) = some (0, 5) := by decide +kernel

/-! ## Host operations -/

/-- One step, by its schedule. -/
def performs (op : HostOp) (s : State) (p : State → Bool) : Bool := completes (step { s with schedule := [op] }) p

/-- V-KEY-14, V-KEY-15, V-KEY-16. -/
theorem test_timerTick :
    performs .timerTick { start [] with dt := 2, st := 1 } (fun t => t.dt == 1 && t.st == 0) = true ∧
    performs .timerTick { start [] with dt := 0, st := 1 } (fun t => t.dt == 0 && t.st == 0) = true ∧
    performs .timerTick { start [] with dt := 2, faulted := true } (fun t => t.dt == 1 && t.faulted) = true := by
  decide +kernel

/-- V-CF-9: nothing executes while the latch is set. -/
theorem test_tick_faulted :
    performs .tick ({ start [(0, 1)] with faulted := true, status := .faulted .overflow }.memWrite 0x200 0x70)
      (fun t => t.reg 0 == 1 && t.pc == 0x200 && t.status == .faulted .overflow) = true := by decide +kernel

/-- 60_exceptions R229, 70 R242: the latch is cleared, a program byte is gone, the given FONT is there. -/
theorem test_reset_clears :
    performs (.reset (Vector.replicate 80 0x3C)) ({ start [(0, 1)] with faulted := true, draws := 7 }.memWrite 0x200 0x70)
      (fun t => t.reg 0 == 0 && !t.faulted && t.memRead 0x200 == 0 && t.memRead 79 == 0x3C && t.draws == 7) = true := by
  decide +kernel

/-- 60_exceptions R230: the bytes of P5. -/
theorem test_load : performs (.load [0x22, 0x00]) (start []) (fun t => t.memRead 0x200 == 0x22 && t.pc == 0x200) = true := by
  decide +kernel

/-- L1-11: fetch wraps and is big-endian. -/
theorem test_fetch_wraps : (((start []).memWrite 0xFFF 0x12).memWrite 0x000 0x34).fetchWord 0x1FFF = 0x1234 := by
  decide +kernel

/-- From reset with nothing loaded the first step runs the NOP 0x0000 at 0x200 (70_reset_and_hazards R244; log 5). -/
theorem test_step_from_reset : completes (step State.reset) (fun t => t.pc == 0x202 && t.status == .running) = true := by
  decide +kernel

/-- 92 D18: a timer rate kept for ever; the round goes on with its Tick, and the rate stands. -/
theorem test_cycle_keeps_a_rate : completes (step { start [] with dt := 2, unending := .cycle [.timerTick, .tick] })
    (fun t => t.dt == 1 && t.schedule == [.tick] && t.unending == .cycle [.timerTick, .tick]) = true := by decide +kernel

/-- 92 D18: with nothing known of the host, any operation may be next, and the turn after it is another. -/
theorem test_free_schedule : { start [] with unending := .free 3 }.nextOp = Config.hostOp 3 ∧
    { start [] with unending := .free 3 }.takeOp.unending = .free 4 := ⟨rfl, rfl⟩

/-- Whatever the host was to do, the placed word is what the next step runs (log 5). -/
theorem test_withFetchWord_any_host : after { start [] with schedule := [.timerTick], unending := .free 0 } 0x1345 (·.pc) =
    some 0x345 := by decide +kernel

/-- 10_state R33: pixel (60, 31) is bit 3 of FB[255]. -/
theorem test_hostPixel : hostPixel ((Vector.replicate 256 0).set 255 0x08) 60 31 = true := by decide +kernel

/-- 60_exceptions R232: reading for disassembly wraps as fetch does. -/
theorem test_hostDisassemble : hostDisassemble ((start []).memWrite 0x200 0xA3) 0x1200 = .ldI 0x300 := by decide +kernel

/-! ## Witnesses: what the hypotheses of the obligations ask for exists -/

/-- The state an outcome completes in. -/
def nextOf (r : Result) : State :=
  match r with
  | .next t => t
  | .fault _ => State.reset
  | .refused _ => State.reset

theorem next_of_completes (r : Result) (p : State → Bool) (h : completes r p = true) : r = .next (nextOf r) := by
  cases r <;> simp_all [completes, nextOf]

/-- The state after reset with this word at pc. -/
def holding (w : Word) : State := (start []).placeWord w

/-- DecodeOfEncode, at a NOP and at the ends of each field's range. -/
theorem witness_DecodeOfEncode : (Instr.nop 0x0123).wellFormed = true ∧ (Instr.jp 0xFFF).wellFormed = true ∧
    (Instr.drw 15 0 15).wellFormed = true ∧ (Instr.ldByte 15 0xFF).wellFormed = true := by decide

/-- The bytes of a CALL, at 0x200 and across the top of memory. -/
theorem witness_bytes : ∀ s ∈ [holding 0x2345, { start [] with pc := 0xFFF }.placeWord 0x2345],
    s.faulted = false ∧ s.nextOp = .tick ∧ s.memRead s.pc = 0x23 ∧ s.memRead (s.pc + 1) = 0x45 := by decide +kernel

/-- TickRunsDecodedInstruction. -/
theorem witness_TickRunsDecodedInstruction : ∀ s ∈ [holding 0x2345, { start [] with pc := 0xFFF }.placeWord 0x2345],
    s.faulted = false ∧ s.nextOp = .tick ∧ decode [s.memRead s.pc, s.memRead (s.pc + 1)] = .ok (.call 0x345, []) := by
  intro s hs
  obtain ⟨h₁, h₂, h₃, h₄⟩ := witness_bytes s hs
  rw [h₃, h₄]
  exact ⟨h₁, h₂, by decide⟩

/-- TickRunsDecodedInstruction and EndedStateIsFinal, in the midst of an unending schedule. -/
theorem witness_tick_of_cycle : { holding 0x1200 with unending := .cycle [.tick, .timerTick] }.nextOp = .tick ∧
    ended { holding 0x1200 with unending := .cycle [.tick, .timerTick] } := by decide +kernel

/-- FaultedTickChangesNothing. -/
theorem witness_FaultedTickChangesNothing : ∃ s : State, s.faulted = true ∧ s.nextOp = .tick :=
  ⟨{ start [] with faulted := true, status := .faulted .underflow }, rfl, rfl⟩

/-- EachTickReportsItsStatus: each clause at its bounds, with the status it reports. -/
def tickCases : List (State × Status) :=
  [({ holding 0x7001 with faulted := true, status := .faulted .overflow }, .faulted .overflow),
   (holding 0xF20A, .waiting), ({ holding 0xF20A with input := 0x8000 }, .running),
   ({ holding 0x2300 with sp := 62 }, .running), ({ holding 0x2300 with sp := 63 }, .faulted .overflow),
   ({ holding 0x2300 with sp := 255 }, .faulted .overflow), ({ holding 0x00EE with sp := 1 }, .faulted .underflow),
   ({ holding 0x00EE with sp := 2 }, .running), ({ holding 0x00EE with sp := 64 }, .running),
   ({ holding 0x6005 with status := .waiting }, .running)]

theorem witness_EachTickReportsItsStatus : ∀ c ∈ tickCases, LatchAgrees c.1 ∧ c.1.nextOp = .tick ∧
    completes (step c.1) (fun t => t.status == c.2) = true := by decide +kernel

/-- StatusIsNeverRead: a waiting block. -/
theorem witness_StatusIsNeverRead : ∃ s : State, s.faulted = false ∧ s.nextOp = .tick ∧ s.status = .waiting :=
  ⟨{ start [] with status := .waiting }, rfl, rfl, rfl⟩

/-- SoundTimerIsNeverRead: LD DT,Vx is not LD ST,Vx. -/
theorem witness_SoundTimerIsNeverRead : ∀ x, Instr.ldDtVx 0 ≠ .ldStVx x := by decide

/-- StepKeepsInvariant: a CALL with the last free slot, and one on the full stack. -/
theorem witness_StepKeepsInvariant : ∀ s ∈ [{ holding 0x2300 with sp := 62 }, { holding 0x2300 with sp := 64 }],
    (Memory.wf s.mem ∧ StackBounded s ∧ LatchAgrees s) ∧ completes (step s) (fun _ => true) = true := by decide +kernel

/-- EveryStepCompletes: a full stack and a Load of the most bytes. -/
theorem witness_EveryStepCompletes : ∃ s : State, StackBounded s ∧ LoadBounded s ∧
    s.nextOp = .load (List.replicate 3584 0) :=
  ⟨{ start [] with sp := 64, schedule := [.load (List.replicate 3584 0)] }, by decide, by
    intro program h
    cases h
    exact Nat.le_of_eq List.length_replicate, rfl⟩

/-- A faulted state, about to perform this operation. -/
def faultedBefore (op : HostOp) : State :=
  { start [] with faulted := true, status := .faulted .overflow, schedule := [op] }

/-- LatchIsSticky: every host operation but Reset. -/
theorem witness_LatchIsSticky : ∀ op ∈ [HostOp.tick, .timerTick, .load [1, 2], .setInput 3],
    (faultedBefore op).faulted = true ∧ (∀ font, (faultedBefore op).nextOp ≠ .reset font) ∧
      ∃ t, step (faultedBefore op) = .next t := by
  intro op hop
  simp at hop
  rcases hop with rfl | rfl | rfl | rfl <;> exact ⟨rfl, by simp [faultedBefore, State.nextOp], _, rfl⟩

/-- OnlyCallAndRetRaise: each instruction just past its bound. -/
theorem witness_OnlyCallAndRetRaise : (start []).faulted = false ∧
    completes (exec (.call 0x300) { start [] with sp := 63 }) (·.faulted) = true ∧
    completes (exec .ret { start [] with sp := 1 }) (·.faulted) = true := by decide +kernel

/-- InstructionsWriteOnlyTheirFootprint: the widest store, wrapping at the top of memory. -/
theorem witness_InstructionsWriteOnlyTheirFootprint : Memory.wf State.reset.mem ∧
    completes (exec (.storeRegs 15) { start [] with i := 0xFFF8 }) (fun _ => true) = true := by decide +kernel

/-- EndedStateIsFinal: V-CF-2, and at the last address a jump can reach. -/
theorem witness_EndedStateIsFinal :
    (ended (holding 0x1200) ∧ (holding 0x1200).nextOp = .tick) ∧
      ended ({ start [] with pc := 0xFFF }.placeWord 0x1FFF) := by decide +kernel

/-- CallPushesReturnAddress, PushThenPopIsIdentity and CallThenRetReturns: the empty stack and the last free slot. -/
theorem witness_CallPushesReturnAddress : (start []).sp.toNat ≤ 62 ∧ { start [] with sp := 62 }.sp.toNat ≤ 62 := by
  decide +kernel

/-- RetPopsReturnAddress: one address on the stack, and a full one. -/
theorem witness_RetPopsReturnAddress : ∀ n ∈ [2#8, 64#8],
    2 ≤ { start [] with sp := n }.sp.toNat ∧ { start [] with sp := n }.sp.toNat ≤ 64 := by decide +kernel

/-- StackFaultsChangeOnlyLatchAndStatus: just past each bound. -/
theorem witness_StackFaultsChangeOnlyLatchAndStatus : 62 < { start [] with sp := 63 }.sp.toNat ∧
    { start [] with sp := 1 }.sp.toNat < 2 := by decide +kernel

/-- RetPastTheStackStops: the first such sp. -/
theorem witness_RetPastTheStackStops : 64 < { start [] with sp := 65 }.sp.toNat := by decide +kernel

/-- BcdStoresThreeDigits, StoreRegistersInBulk, StoredBytesAreFetched: a canonical memory that lists cells. -/
theorem witness_BcdStoresThreeDigits : Memory.wf (holding 0x1234).mem ∧ (holding 0x1234).mem ≠ [] := by decide +kernel

/-- StoreThenLoadGivesRegistersBack. -/
theorem witness_StoreThenLoadGivesRegistersBack : Memory.wf (holding 0x1234).mem ∧
    completes (exec (.storeRegs 15) (holding 0x1234)) (fun _ => true) = true := by decide +kernel

/-- PixelRowXorsEightPixels, CollisionIffLitPixelCleared: the last pixel, which a row drawn at (56, 31) reaches. -/
theorem witness_PixelRowXorsEightPixels : 63 < 64 ∧ 31 < 32 ∧
    hostPixel (writePixelRow (Vector.replicate 256 0) 0x01 56 31).1 63 31 = true := by decide +kernel

/-- AlignedRowIsByteXor: the first and the last byte column, and a column past the right edge. -/
theorem witness_AlignedRowIsByteXor : 0 % 8 = 0 ∧ 56 % 8 = 0 ∧ 248 % 8 = 0 := by decide

/-- DrawTwiceRestoresTheScreen: a lit sprite, over a lit screen. -/
theorem witness_DrawTwiceRestoresTheScreen : (0 : Nibble) ≠ 0xF ∧ (1 : Nibble) ≠ 0xF ∧
    (∃ r < (15 : Nibble).toNat, (start []).memRead (indirect (start []).i r) ≠ 0) := by decide +kernel

/-- KeyWaitTakesTheLowestKey: no key, the lowest key and the highest. -/
theorem witness_KeyWaitTakesTheLowestKey : (start []).input = 0 ∧ { start [] with input := 0x0001 }.input ≠ 0 ∧
    { start [] with input := 0x8000 }.input ≠ 0 := by decide +kernel

/-- KeyWaitCompletesOnceAKeyIsHeld: P4's schedule. -/
theorem witness_KeyWaitCompletesOnceAKeyIsHeld :
    let s := { holding 0xF00A with schedule := [.tick, .setInput 0x0220, .tick, .timerTick] }
    s.faulted = false ∧ s.input = 0 ∧ (0x0220 : Word) ≠ 0 ∧ decodeWord (s.fetchWord s.pc) = .ldVxK 0 ∧
      s.schedule = .tick :: .setInput 0x0220 :: .tick :: [.timerTick] := by decide +kernel

/-- TickGoesBeforeTimerTick: LD DT,V0 presented together with a timer tick. -/
theorem witness_TickGoesBeforeTimerTick :
    let s := { holding 0xF015 with schedule := presentedTogether ++ [HostOp.tick] }
    s.schedule = presentedTogether ++ [HostOp.tick] ∧
      completes (tick { s with schedule := HostOp.timerTick :: [HostOp.tick] }) (fun _ => true) = true := by decide +kernel

/-- SetInputWritesInputOnly and ResetGivesTheDefaultState: a state with that operation next. -/
theorem witness_SetInputWritesInputOnly : ∀ op ∈ [HostOp.setInput 0xFFFF, .reset defaultFont],
    { start [] with schedule := [op, .tick] }.schedule = op :: [.tick] := by decide +kernel

/-- LoadCopiesTheProgram: the empty program, the longest, and one byte more. -/
theorem witness_LoadCopiesTheProgram : Memory.wf (holding 0x1234).mem ∧
    (∀ n ∈ [0, 3584], (List.replicate n (0x55 : Byte)).length ≤ 3584) ∧
    3584 < (List.replicate 3585 (0x55 : Byte)).length ∧
    { start [] with schedule := [.load [0x55]] }.schedule = .load [0x55] :: [] := by
  refine ⟨by decide +kernel, fun n hn => ?_, by rw [List.length_replicate]; decide, rfl⟩
  rw [List.length_replicate]
  simp at hn
  omega

/-- DrawXorsTheRowsInOrder has no hypothesis; with 15 rows it completes. -/
theorem witness_DrawXorsTheRowsInOrder : completes (exec (.drw 0 1 15) (start [])) (fun t => t.reg 0xF == 0) = true := by
  decide +kernel

end Sys2Proof.Tests
end

/-! The family 10_state: what every step keeps, what an instruction reads and writes, and the state after reset. -/

namespace Sys2Proof.Machine

/-! ## The invariant -/

/-- A pop lowers sp by 2 without a borrow (20_memory R61). -/
theorem toNat_sub_two {sp : Byte} (h : 2 ≤ sp.toNat) : (sp - 2).toNat = sp.toNat - 2 := by bv_omega

/-- A push with room raises sp by 2 without a carry (20_memory R60). -/
theorem toNat_add_two {sp : Byte} (h : sp.toNat ≤ 62) : (sp + 2).toNat = sp.toNat + 2 := by bv_omega

/-- The invariant speaks of memory, sp, latch and status alone. -/
theorem Inv.of_same {s t : State} (hi : Inv s) (hm : Memory.wf t.mem) (hsp : t.sp = s.sp) (hf : t.faulted = s.faulted)
    (hst : t.status = s.status) : Inv t where
  memory := hm
  stack := by simpa only [StackBounded, hsp] using hi.stack
  latch := by simpa only [LatchAgrees, hf, hst] using hi.latch

/-- Taking a StackFault sets latch and status together (60_exceptions R212). -/
theorem Inv.after_raiseStackFault {s : State} (hi : Inv s) (cause : StackCause) : Inv (s.raiseStackFault cause) :=
  ⟨hi.memory, hi.stack, rfl⟩

theorem Inv.after_ret {s t : State} (hi : Inv s) (h : exec .ret s = .next t) : Inv t := by
  obtain ⟨-, e⟩ | ⟨-, e⟩ | ⟨h₂, -, target, e⟩ := exec_ret_cases h <;> cases e
  · exact hi.after_raiseStackFault _
  · obtain ⟨hle, heven⟩ := hi.stack
    exact ⟨hi.memory, by simp only [StackBounded, toNat_sub_two h₂]; omega, hi.latch⟩

theorem Inv.after_call {nnn : Addr} {s t : State} (hi : Inv s) (h : exec (.call nnn) s = .next t) : Inv t := by
  obtain ⟨-, e⟩ | ⟨hroom, target, stack, e⟩ := exec_call_cases h <;> cases e
  · exact hi.after_raiseStackFault _
  · obtain ⟨hle, heven⟩ := hi.stack
    exact ⟨hi.memory, by simp only [StackBounded, toNat_add_two hroom]; omega, hi.latch⟩

/-- Status Waiting agrees with a clear latch, the only one under which LD Vx,K runs (44_timers_input R195). -/
theorem Inv.after_ldVxK {x : Nibble} {s t : State} (hi : Inv s) (hf : s.faulted = false)
    (h : exec (.ldVxK x) s = .next t) : Inv t := by
  obtain ⟨-, e⟩ | ⟨-, e⟩ := exec_ldVxK_cases h <;> cases e
  · exact ⟨hi.memory, hi.stack, hf⟩
  · exact hi.of_same hi.memory rfl rfl rfl

theorem Inv.after_quiet {i : Instr} {s t : State} (hi : Inv s) (h : exec i s = .next t)
    (hs : Instr.usesStack i = false) (hk : ∀ x, i ≠ .ldVxK x) : Inv t := by
  obtain ⟨u, hu, hsp, -, hfaulted, hstatus, -, -, hmem⟩ := exec_of_quiet i s hs hk
  cases h.symm.trans hu
  exact hi.of_same (hmem hi.memory) hsp hfaulted hstatus

/-- Every instruction of an unfaulted block keeps the invariant. -/
theorem Inv.after_exec {i : Instr} {s t : State} (hi : Inv s) (hf : s.faulted = false) (h : exec i s = .next t) :
    Inv t := by
  cases i with
  | ret => exact hi.after_ret h
  | call nnn => exact hi.after_call h
  | ldVxK x => exact hi.after_ldVxK hf h
  | _ => exact hi.after_quiet h rfl nofun

theorem Inv.after_tick {s t : State} (hi : Inv s) (h : tick s = .next t) : Inv t := by
  cases hf : s.faulted with
  | true =>
    rw [tick_of_faulted s hf] at h
    cases h
    exact hi
  | false =>
    rw [tick_of_not_faulted s hf] at h
    have running : Inv { s with status := .running } := ⟨hi.memory, hi.stack, hf⟩
    exact running.after_exec hf h

theorem inv_reset : Inv State.reset := ⟨State.reset_wf, by decide, rfl⟩

theorem inv_resetWith (font : Font) : Inv (State.resetWith font) :=
  inv_reset.of_same (State.resetWith_wf font) rfl rfl rfl

/-- Load copies a program into canonical memory or is refused (60_exceptions R230). -/
theorem Inv.after_load {program : List Byte} {s t : State} (hi : Inv s) (h : s.load program = .next t) : Inv t := by
  unfold State.load at h
  split at h <;> cases h
  exact hi.of_same (Memory.writeBytes_wf _ hi.memory _ _) rfl rfl rfl

/-- Every host operation keeps the invariant (60_exceptions R226). -/
theorem Inv.after_perform {op : HostOp} {s t : State} (hi : Inv s) (h : perform op s = .next t) : Inv t := by
  cases op with
  | tick => exact hi.after_tick h
  | timerTick => cases h; exact hi.of_same hi.memory rfl rfl rfl
  | reset font => cases h; exact (inv_resetWith font).of_same (State.resetWith_wf font) rfl rfl rfl
  | load program => exact hi.after_load h
  | setInput m => cases h; exact hi.of_same hi.memory rfl rfl rfl

/-- Settles O13: the invariant survives taking the next operation off the schedule, and then any host operation. -/
theorem stepKeepsInvariant : Obligations.StepKeepsInvariant := by
  intro s t hi h
  have taken : Inv s.takeOp := hi.of_same hi.memory rfl rfl rfl
  exact taken.after_perform h

/-- Settles O12, from the canonical memory of every default state. -/
theorem invariantHoldsAtReset : Obligations.InvariantHoldsAtReset := ⟨inv_reset, inv_resetWith⟩

/-! ## What an instruction reads -/

/-- LD Vx,K with no key held (44_timers_input R195). -/
theorem exec_ldVxK_waits (x : Nibble) (s : State) (h : s.input = 0) :
    exec (.ldVxK x) s = .next { s with status := .waiting } := if_pos h

/-- LD Vx,K with a key held (44_timers_input R195). -/
theorem exec_ldVxK_takes (x : Nibble) (s : State) (h : s.input ≠ 0) :
    exec (.ldVxK x) s = .next (s.setReg x (lowest s.input)).nextInstr := if_neg h

/-- Settles O11: RET, CALL and LD Vx,K choose between outcomes by sp and input, which the sound timer is not part of;
every other instruction completes in a state whose other fields are computed without it. -/
theorem soundTimerIsNeverRead : Obligations.SoundTimerIsNeverRead := by
  intro i s b hi
  cases i with
  | ldStVx x => exact absurd rfl (hi x)
  | ret =>
    simp only [exec]
    rcases Nat.lt_or_ge s.sp.toNat 2 with hempty | h₂
    · rw [execRet_empty s hempty, execRet_empty { s with st := b } hempty]; rfl
    · rcases Nat.lt_or_ge 64 s.sp.toNat with hpast | hle
      · rw [execRet_absent s hpast, execRet_absent { s with st := b } hpast]
      · rw [execRet_value s h₂ hle, execRet_value { s with st := b } h₂ hle]; rfl
  | call nnn =>
    simp only [exec]
    rcases Nat.lt_or_ge 62 s.sp.toNat with hfull | hroom
    · rw [execCall_full nnn s hfull, execCall_full nnn { s with st := b } hfull]; rfl
    · rw [execCall_pushes nnn s hroom, execCall_pushes nnn { s with st := b } hroom]; rfl
  | ldVxK x =>
    by_cases hnone : s.input = 0
    · rw [exec_ldVxK_waits x s hnone, exec_ldVxK_waits x { s with st := b } hnone]
    · rw [exec_ldVxK_takes x s hnone, exec_ldVxK_takes x { s with st := b } hnone]; rfl
  | _ => rfl

/-- The tick of an unfaulted block sets status Running before the instruction runs, so the one before it is lost. -/
theorem tick_with_status (s : State) (b : Status) (hf : s.faulted = false) : tick { s with status := b } = tick s :=
  (tick_of_not_faulted { s with status := b } hf).trans (tick_of_not_faulted s hf).symm

/-- Settles O10, by the tick of the state with the operation taken off. -/
theorem statusIsNeverRead : Obligations.StatusIsNeverRead := by
  intro s b hf hop
  rw [step_of_tick s hop, step_of_tick { s with status := b } hop]
  exact tick_with_status s.takeOp b hf

/-- Settles O25, by RET's outcome past the stack's end. -/
theorem retPastTheStackStops : Obligations.RetPastTheStackStops := execRet_absent

/-! ## What an instruction writes: the access table as rules that build a footprint up one write at a time -/

/-- Changing nothing is in every footprint. -/
theorem WritesOnly.refl (i : Instr) (s : State) : WritesOnly i s s := by
  constructor <;> simp

section
variable {i : Instr} {s t : State}

/-- pc is in every instruction's footprint. -/
theorem WritesOnly.setPc (h : WritesOnly i s t) (pc : Word) : WritesOnly i s { t with pc := pc } := { h with }

theorem WritesOnly.advance (h : WritesOnly i s t) (k : Word) : WritesOnly i s (t.advance k) := h.setPc _

theorem WritesOnly.setRegs (h : WritesOnly i s t) {v : Registers}
    (hv : ∀ r, r ∉ Instr.regsWritten i → Registers.get v r = t.reg r) : WritesOnly i s { t with v := v } :=
  { h with regs := fun r hr => (hv r hr).trans (h.regs r hr) }

theorem WritesOnly.setReg (h : WritesOnly i s t) {x : Nibble} (hx : x ∈ Instr.regsWritten i) (b : Byte) :
    WritesOnly i s (t.setReg x b) :=
  h.setRegs fun r hr => (State.reg_setReg t x r b).trans (if_neg (ne_of_mem_of_not_mem hx hr))

theorem WritesOnly.setIndex (h : WritesOnly i s t) (hw : Instr.writesIndex i = true) (a : Word) :
    WritesOnly i s { t with i := a } :=
  { h with index := fun hn => absurd (hn.symm.trans hw) (by decide) }

theorem WritesOnly.setMem (h : WritesOnly i s t) {m : Memory}
    (hm : ∀ a, physical a ∉ Instr.addressesWritten s i → m.readAt a = t.memRead a) :
    WritesOnly i s { t with mem := m } :=
  { h with memory := fun a ha => (hm a ha).trans (h.memory a ha) }

theorem WritesOnly.memWrite (h : WritesOnly i s t) (hw : Memory.wf t.mem) {a : Word}
    (ha : physical a ∈ Instr.addressesWritten s i) (b : Byte) : WritesOnly i s (t.memWrite a b) :=
  h.setMem fun a' ha' => (State.memRead_memWrite t hw a a' b).trans (if_neg (ne_of_mem_of_not_mem ha ha'))

/-- CALL and RET write sp, the stack, latch and status. -/
theorem WritesOnly.of_usesStack (hi : Instr.usesStack i = true) {pc : Word} {stack : StackBytes} {sp : Byte} {faulted : Bool}
    {status : Status} :
    WritesOnly i s { s with pc := pc, stack := stack, sp := sp, faulted := faulted, status := status } :=
  { WritesOnly.refl i s with
    stack := fun hn => absurd (hn.symm.trans hi) (by decide)
    status := fun hn => absurd (hn.symm.trans hi) (by decide) }

end

/-- LD B,Vx writes its three digits where its footprint says (42_index_memory R155). -/
theorem writesOnly_ldB {x : Nibble} {s t : State} (hw : Memory.wf s.mem) (h : exec (.ldB x) s = .next t) :
    WritesOnly (.ldB x) s t := by
  cases h
  have digit : ∀ k < 3, physical (indirect s.i k) ∈ Instr.addressesWritten s (.ldB x) := fun k hk =>
    List.mem_map.mpr ⟨k, List.mem_range.mpr hk, rfl⟩
  have hw₁ := State.memWrite_wf s hw (indirect s.i 0) (bcdHundreds (s.reg x))
  exact ((((WritesOnly.refl _ s).memWrite hw (digit 0 (by decide)) _).memWrite hw₁ (digit 1 (by decide)) _).memWrite
    (State.memWrite_wf _ hw₁ _ _) (digit 2 (by decide)) _).advance _

/-- LD [I],Vx writes no byte outside I .. I + x (42_index_memory R156). -/
theorem writesOnly_storeRegs {x : Nibble} {s t : State} (hw : Memory.wf s.mem) (h : exec (.storeRegs x) s = .next t) :
    WritesOnly (.storeRegs x) s t := by
  cases h
  have outside : ∀ a, physical a ∉ Instr.addressesWritten s (.storeRegs x) →
      (storeRegisters s.v s.i s.mem (x.toNat + 1)).readAt a = s.memRead a := fun a ha =>
    storeRegisters_read_other _ _ _ hw _ a fun k hk e => ha (List.mem_map.mpr ⟨k, List.mem_range.mpr hk, e.symm⟩)
  exact (((WritesOnly.refl _ s).setMem outside).setIndex rfl _).advance _

/-- LD Vx,[I] writes no register above Vx (42_index_memory R157). -/
theorem writesOnly_loadRegs {x : Nibble} {s t : State} (h : exec (.loadRegs x) s = .next t) :
    WritesOnly (.loadRegs x) s t := by
  cases h
  have above : ∀ r, r ∉ Instr.regsWritten (.loadRegs x) →
      Registers.get (loadRegisters s.mem s.i s.v (x.toNat + 1)) r = s.reg r := fun r hr =>
    (loadRegisters_get _ _ _ _ x.isLt r).trans
      (if_neg fun hle => hr (List.mem_map.mpr ⟨r.toNat, List.mem_range.mpr hle, by simp⟩))
  exact (((WritesOnly.refl _ s).setRegs above).setIndex rfl _).advance _

/-- Settles O17: each instruction's writes, one rule after the other, from the state it starts in. RET, CALL and LD Vx,K
by their outcomes; the transfers through I by their own lemmas. -/
theorem instructionsWriteOnlyTheirFootprint : Obligations.InstructionsWriteOnlyTheirFootprint := by
  intro i s t hw h
  have unchanged := WritesOnly.refl i s
  cases i with
  | ret =>
    obtain ⟨-, e⟩ | ⟨-, e⟩ | ⟨-, -, target, e⟩ := exec_ret_cases h <;> cases e <;> exact .of_usesStack rfl
  | call nnn =>
    obtain ⟨-, e⟩ | ⟨-, target, stack, e⟩ := exec_call_cases h <;> cases e <;> exact .of_usesStack rfl
  | ldVxK x =>
    obtain ⟨-, e⟩ | ⟨-, e⟩ := exec_ldVxK_cases h <;> cases e
    · exact { unchanged with status := fun _ hk => absurd rfl (hk x) }
    · exact (unchanged.setReg (.head _) _).advance _
  | ldB x => exact writesOnly_ldB hw h
  | storeRegs x => exact writesOnly_storeRegs hw h
  | loadRegs x => exact writesOnly_loadRegs h
  | cls =>
    cases h
    exact { unchanged with screen := fun hn => absurd rfl hn }
  | drw x y n =>
    cases h
    exact { unchanged.setReg (.head _) _ with screen := fun _ hn => absurd rfl (hn x y n) }
  | rnd x kk =>
    cases h
    exact { unchanged.setReg (.head _) _ with draws := fun hn => absurd rfl (hn x kk) }
  | ldDtVx x =>
    cases h
    exact { unchanged with delay := fun hn => absurd rfl (hn x) }
  | ldStVx x =>
    cases h
    exact { unchanged with sound := fun hn => absurd rfl (hn x) }
  | ldI | addI | ldF =>
    cases h
    exact (unchanged.setIndex rfl _).advance _
  | addReg | subReg | shr | subnReg | shl =>
    cases h
    exact ((unchanged.setReg (.tail _ (.head _)) _).setReg (.head _) _).advance _
  | ldByte | addByte | ldReg | orReg | andReg | xorReg | ldVxDt =>
    cases h
    exact (unchanged.setReg (.head _) _).advance _
  | jp | seByte | sneByte | seReg | sneReg | jpV0 | skp | sknp | nop =>
    cases h
    exact unchanged.setPc _

/-! ## A key wait over three steps -/

/-- A step whose listed operation is a tick runs the instruction at pc, in an unfaulted block (40_control_flow R110). -/
theorem step_of_listed_tick {s : State} {rest : List HostOp} {i : Instr} (hf : s.faulted = false)
    (hs : s.schedule = .tick :: rest) (hd : decodeWord (s.fetchWord s.pc) = i) :
    step s = exec i { s with schedule := rest, status := .running } := by
  subst hd
  rw [step_of_cons s _ rest hs, perform, tick_of_not_faulted { s with schedule := rest } hf]
  rfl

/-- A step on LD Vx,K with no key held: the wait polls (60_exceptions R234). -/
theorem step_ldVxK_waits {s : State} {rest : List HostOp} {x : Nibble} (hf : s.faulted = false)
    (hs : s.schedule = .tick :: rest) (hd : decodeWord (s.fetchWord s.pc) = .ldVxK x) (hnone : s.input = 0) :
    step s = .next { s with status := .waiting, schedule := rest } :=
  (step_of_listed_tick hf hs hd).trans (exec_ldVxK_waits x { s with schedule := rest, status := .running } hnone)

/-- A step on LD Vx,K with a key held: the wait completes (44_timers_input R195). -/
theorem step_ldVxK_takes {s : State} {rest : List HostOp} {x : Nibble} (hf : s.faulted = false)
    (hs : s.schedule = .tick :: rest) (hd : decodeWord (s.fetchWord s.pc) = .ldVxK x) (hheld : s.input ≠ 0) :
    step s = .next (State.setReg { s with schedule := rest, status := .running } x (lowest s.input)).nextInstr :=
  (step_of_listed_tick hf hs hd).trans (exec_ldVxK_takes x { s with schedule := rest, status := .running } hheld)

/-- A step whose listed operation is SetInput (60_exceptions R231). -/
theorem step_of_setInput {s : State} {m : Word} {rest : List HostOp} (hs : s.schedule = .setInput m :: rest) :
    step s = .next { s with input := m, schedule := rest } := step_of_cons s _ rest hs

/-- Settles O53: neither the waiting tick nor SetInput moves pc or memory, so the third step fetches the same LD Vx,K, now
with a key held. -/
theorem keyWaitCompletesOnceAKeyIsHeld : Obligations.KeyWaitCompletesOnceAKeyIsHeld := by
  intro x m rest s hf hnone hm hd hs
  obtain ⟨k, hk, hset, hlow, hlowest⟩ := lowest_spec m hm
  refine ⟨_, _, _, step_ldVxK_waits hf hs hd hnone, rfl, step_of_setInput rfl, rfl,
    step_ldVxK_takes hf rfl hd hm, rfl, ?_, k, hk, hset, hlow, ?_⟩
  · exact congrArg State.pc (State.advance_eq s 2)
  · simp [hlowest]

/-! ## The state after reset -/

theorem State.reset_reg (r : Nibble) : State.reset.reg r = 0 := by
  simp [State.reg, Registers.get, State.reset]

theorem State.reset_stack (j : Nat) (hj : j < 64) : State.reset.stack[j] = 0 := by
  simp [State.reset]

/-- Every byte of the default FONT is what its address reads as unlisted, so installing it lists no cell (log 10). -/
theorem State.resetWith_defaultFont : State.resetWith defaultFont = State.reset := by
  have installed : Memory.writeBytes [] 0 defaultFont.toList = [] := by decide +kernel
  rw [State.resetWith, installed]
  rfl

/-- The memory after reset: the default font, then zeros (70_reset_and_hazards R242). -/
theorem State.reset_read (a : Nat) : State.reset.mem.read a = if h : a < 80 then defaultFont[a] else 0 := rfl

/-- Settles O60, from the lemmas about State.reset; its scalar elements hold their values by definition. -/
theorem resetStateHoldsTheDefaults : Obligations.ResetStateHoldsTheDefaults :=
  ⟨State.resetWith_defaultFont, State.reset_reg, rfl, rfl, State.reset_stack, fun j _ => Framebuffer.get_blank j,
    rfl, rfl, rfl, rfl, rfl, rfl, fun a ha => (State.reset_read a).trans (dif_pos ha),
    fun a ha => (State.reset_read a).trans (dif_neg (Nat.not_lt.mpr ha))⟩

/-- Settles O59: the default state with this FONT, but for the draw counter and what the host does next. -/
theorem resetGivesTheDefaultState : Obligations.ResetGivesTheDefaultState := by
  intro font rest s hs
  refine ⟨{ State.resetWith font with draws := s.draws, schedule := rest, unending := s.unending },
    step_of_cons s _ rest hs, State.reset_reg, rfl, rfl, State.reset_stack, rfl, rfl, rfl,
    fun j _ => Framebuffer.get_blank j, fun a ha => ?_, fun a ha _ => ?_, rfl, rfl, rfl, rfl, rfl, rfl⟩
  · exact (State.resetWith_read font a).trans (dif_pos ha)
  · exact (State.resetWith_read font a).trans (dif_neg (Nat.not_lt.mpr ha))

end Sys2Proof.Machine

/-! The family 20_memory: the word a fetch reads, the stack's round trip, self-modifying code, and Load. -/

namespace Sys2Proof.Machine

/-! ## Fetch -/

/-- The second byte of a fetch: a carry out of 16 bits is lost modulo 4096 too (20_memory R54). -/
theorem physical_add_one (a : Word) : physical (a + 1) = (a.toNat + 1) % 4096 :=
  physical_indirect a 1

/-- The value of a fetched word, by the two bytes it reads (20_memory R54). -/
theorem State.fetchWord_toNat (s : State) (a : Word) :
    (s.fetchWord a).toNat = 256 * (s.memRead a).toNat + (s.memRead (a + 1)).toNat := joinBytes_toNat _ _

/-- Settles O6: the two bytes fetched, each address reduced modulo 4096. -/
theorem fetchIsBigEndianAndWraps : Obligations.FetchIsBigEndianAndWraps := by
  intro s a
  have second : s.memRead (a + 1) = s.mem.read ((a.toNat + 1) % 4096) := congrArg s.mem.read (physical_add_one a)
  rw [State.fetchWord_toNat, second]
  rfl

/-! ## The stack -/

/-- Popping what was just pushed gives the value and the old sp; the stack keeps the bytes (20_memory R60, R61, R63). -/
theorem State.pop_of_push {s t : State} {v : Word} (hroom : s.sp.toNat ≤ 62) (h : s.push v = .ok t) :
    t.pop = .value v { s with stack := t.stack } := by
  rw [State.push_ok s v hroom] at h
  cases h
  have hsp := toNat_add_two hroom
  rw [State.pop_value _ (by simp only [hsp]; omega) (by simp only [hsp]; omega)]
  simp only [hsp]
  simp [joinBytes_high_low]

/-- Settles O26: with room, push completes, and the pop after it reads the pushed bytes back. -/
theorem pushThenPopIsIdentity : Obligations.PushThenPopIsIdentity := by
  intro s v hroom
  exact ⟨_, _, State.push_ok s v hroom, State.pop_of_push hroom (State.push_ok s v hroom), rfl⟩

/-! ## Self-modifying code -/

/-- Register k, one of the x + 1 that LD [I],Vx stores, is what its address then holds (42_index_memory R156). -/
theorem memRead_of_storeRegs {x k : Nibble} {s t : State} (hw : Memory.wf s.mem) (h : exec (.storeRegs x) s = .next t)
    (hk : k.toNat ≤ x.toNat) : t.memRead (indirect s.i k.toNat) = s.reg k := by
  cases h
  exact storeRegisters_read s.v s.i s.mem hw _ x.isLt _ k (Nat.lt_succ_of_le hk) rfl

/-- Settles O44: the fetch at the old I reads the addresses V0 and V1 were stored at. -/
theorem storedBytesAreFetched : Obligations.StoredBytesAreFetched := by
  intro s hw
  obtain ⟨t, ht⟩ : ∃ t, exec (.storeRegs 1) s = .next t := ⟨_, rfl⟩
  have high : t.memRead s.i = s.reg 0 := by
    simpa [indirect] using memRead_of_storeRegs (k := 0) hw ht (by decide)
  have low : t.memRead (s.i + 1) = s.reg 1 := memRead_of_storeRegs (k := 1) hw ht (by decide)
  exact ⟨t, ht, by rw [State.fetchWord_toNat, high, low]⟩

/-! ## Load -/

/-- A program that fits is copied to 0x200 (60_exceptions R230). -/
theorem State.load_of_fits {s : State} {program : List Byte} (h : program.length ≤ 3584) :
    s.load program = .next { s with mem := Memory.writeBytes s.mem 0x200 program } := if_pos h

/-- A longer one is refused (60_exceptions R230, 92 D20). -/
theorem State.load_of_too_long {s : State} {program : List Byte} (h : 3584 < program.length) :
    s.load program = .refused (.loadTooLong program.length) := if_neg (Nat.not_le.mpr h)

/-- Settles O58: a program of at most 3584 bytes ends at or below 4096, so no byte of it wraps. -/
theorem loadCopiesTheProgram : Obligations.LoadCopiesTheProgram := by
  intro program rest s hw hs
  have performed : step s = State.load { s with schedule := rest } program := step_of_cons s _ rest hs
  refine ⟨fun hfits => ?_, fun hlong => performed.trans (State.load_of_too_long hlong)⟩
  have copied := Memory.read_writeBytes s.mem hw 0x200 program
    (show 512 + program.length ≤ 4096 by omega)
  refine ⟨_, performed.trans (State.load_of_fits hfits), rfl, fun k hk => ?_, fun a ha => ?_⟩
  · rw [copied, dif_pos (by simpa using hk)]
    simp
  · rw [copied, dif_neg (by simp; omega)]

end Sys2Proof.Machine

/-! The family 30_encoding: encoder and decoder undo each other, the decoder follows the opcode map, and every step
completes. -/

namespace Sys2Proof

/-! ## A word rebuilt from its own fields -/

section
variable {w : Word} {op : Nibble}

theorem wordNnn_of_op (h : opField w = op) : wordNnn op (nnnField w) = w := h ▸ wordNnn_fields w

theorem wordXKk_of_op (h : opField w = op) : wordXKk op (xField w) (kkField w) = w := h ▸ wordXKk_fields w

theorem wordXYN_of_op (h : opField w = op) : wordXYN op (xField w) (yField w) (nField w) = w := h ▸ wordXYN_fields w

theorem wordXKk_of_op_kk {kk : Byte} (h : opField w = op) (hk : kkField w = kk) : wordXKk op (xField w) kk = w :=
  hk ▸ wordXKk_of_op h

theorem wordXYN_of_op_n {n : Nibble} (h : opField w = op) (hn : nField w = n) :
    wordXYN op (xField w) (yField w) n = w := hn ▸ wordXYN_of_op h

end

/-! ## What the decoder can answer -/

/-- The 8 family by its low nibble (30_encoding R87). -/
theorem decode8_cases (w : Word) :
    (nField w = 0x0 ∧ decode8 w = .ldReg (xField w) (yField w)) ∨
      (nField w = 0x1 ∧ decode8 w = .orReg (xField w) (yField w)) ∨
      (nField w = 0x2 ∧ decode8 w = .andReg (xField w) (yField w)) ∨
      (nField w = 0x3 ∧ decode8 w = .xorReg (xField w) (yField w)) ∨
      (nField w = 0x4 ∧ decode8 w = .addReg (xField w) (yField w)) ∨
      (nField w = 0x5 ∧ decode8 w = .subReg (xField w) (yField w)) ∨
      (nField w = 0x6 ∧ decode8 w = .shr (xField w) (yField w)) ∨
      (nField w = 0x7 ∧ decode8 w = .subnReg (xField w) (yField w)) ∨
      (nField w = 0xE ∧ decode8 w = .shl (xField w) (yField w)) ∨
      (nField w ∉ [0x0, 0x1, 0x2, 0x3, 0x4, 0x5, 0x6, 0x7, 0xE] ∧ decode8 w = .nop w) := by
  unfold decode8
  split <;> simp_all [← BitVec.toNat_inj]

/-- Every word by its high nibble (30_encoding R84, R86). -/
theorem decodeWord_cases (w : Word) :
    (opField w = 0x0 ∧ decodeWord w = decode0 w) ∨ (opField w = 0x1 ∧ decodeWord w = .jp (nnnField w)) ∨
      (opField w = 0x2 ∧ decodeWord w = .call (nnnField w)) ∨
      (opField w = 0x3 ∧ decodeWord w = .seByte (xField w) (kkField w)) ∨
      (opField w = 0x4 ∧ decodeWord w = .sneByte (xField w) (kkField w)) ∨
      (opField w = 0x5 ∧ decodeWord w = .seReg (xField w) (yField w) (nField w)) ∨
      (opField w = 0x6 ∧ decodeWord w = .ldByte (xField w) (kkField w)) ∨
      (opField w = 0x7 ∧ decodeWord w = .addByte (xField w) (kkField w)) ∨
      (opField w = 0x8 ∧ decodeWord w = decode8 w) ∨
      (opField w = 0x9 ∧ decodeWord w = .sneReg (xField w) (yField w) (nField w)) ∨
      (opField w = 0xA ∧ decodeWord w = .ldI (nnnField w)) ∨ (opField w = 0xB ∧ decodeWord w = .jpV0 (nnnField w)) ∨
      (opField w = 0xC ∧ decodeWord w = .rnd (xField w) (kkField w)) ∨
      (opField w = 0xD ∧ decodeWord w = .drw (xField w) (yField w) (nField w)) ∨
      (opField w = 0xE ∧ decodeWord w = decodeE w) ∨ (opField w = 0xF ∧ decodeWord w = decodeF w) := by
  rcases nibble_cases (opField w) with h | h | h | h | h | h | h | h | h | h | h | h | h | h | h | h <;>
    simp [decodeWord, h]

/-! ## The NOP space (30_encoding R93) -/

theorem isNopWord_iff (w : Word) : isNopWord w = true ↔ ∀ r ∈ opcodeRows, r.selects w = false := by
  simp [isNopWord]

/-- No row is numbered 35, so a word is of the NOP space when row 35 and no other would select it. -/
theorem isNopWord_of_only_row_35 {w : Word} (h : ∀ r ∈ opcodeRows, (r.selects w = true ↔ r.number = 35)) :
    isNopWord w = true := by
  have numbered : ∀ r ∈ opcodeRows, r.number ≠ 35 := by decide
  exact (isNopWord_iff w).mpr fun r hr => Bool.eq_false_iff.mpr fun e => numbered r hr ((h r hr).mp e)

/-! ## Each family's words: a well-formed instruction whose word it is -/

theorem wellFormed_encode_decode0 {w : Word} (h : opField w = 0x0) :
    (decodeWord w).wellFormed = true ∧ encode (decodeWord w) = w := by
  rcases decode0_cases w h with ⟨hw, e⟩ | ⟨hw, e⟩ | ⟨hcls, hret, e⟩ <;> rw [e]
  · exact ⟨rfl, hw.symm⟩
  · exact ⟨rfl, hw.symm⟩
  · have nop : isNopWord w = true := isNopWord_of_only_row_35 ((only_row_iff w 35).mpr (by simpa [h] using ⟨hcls, hret⟩))
    exact ⟨nop, rfl⟩

theorem wellFormed_encode_decode8 {w : Word} (h : opField w = 0x8) :
    (decode8 w).wellFormed = true ∧ encode (decode8 w) = w := by
  rcases decode8_cases w with c | c | c | c | c | c | c | c | c | ⟨hn, e⟩
  pick_goal 10
  · have nop : isNopWord w = true := isNopWord_of_only_row_35 ((only_row_iff w 35).mpr (by simpa [h] using hn))
    exact e ▸ ⟨nop, rfl⟩
  all_goals
    obtain ⟨hn, e⟩ := c
    exact e ▸ ⟨rfl, wordXYN_of_op_n h hn⟩

theorem wellFormed_encode_decodeE {w : Word} (h : opField w = 0xE) :
    (decodeE w).wellFormed = true ∧ encode (decodeE w) = w := by
  rcases decodeE_cases w with ⟨hk, e⟩ | ⟨hk, e⟩ | ⟨hskp, hsknp, e⟩ <;> rw [e]
  · exact ⟨rfl, wordXKk_of_op_kk h hk⟩
  · exact ⟨rfl, wordXKk_of_op_kk h hk⟩
  · have nop : isNopWord w = true := isNopWord_of_only_row_35 ((only_row_iff w 35).mpr (by simpa [h] using ⟨hskp, hsknp⟩))
    exact ⟨nop, rfl⟩

theorem wellFormed_encode_decodeF {w : Word} (h : opField w = 0xF) :
    (decodeF w).wellFormed = true ∧ encode (decodeF w) = w := by
  rcases decodeF_cases w with c | c | c | c | c | c | c | c | c | ⟨h₁, h₂, h₃, h₄, h₅, h₆, h₇, h₈, h₉, e⟩
  pick_goal 10
  · have nop : isNopWord w = true := isNopWord_of_only_row_35 ((only_row_iff w 35).mpr
      (by simpa [h] using ⟨h₁, h₂, h₃, h₄, h₅, h₆, h₇, h₈, h₉⟩))
    exact e ▸ ⟨nop, rfl⟩
  all_goals
    obtain ⟨hk, e⟩ := c
    exact e ▸ ⟨rfl, wordXKk_of_op_kk h hk⟩

/-! ## Encoding undoes decoding -/

/-- Settles O2: by the high nibble, then within a family by what selects its forms; no field is dropped. -/
theorem encodeOfDecode : Obligations.EncodeOfDecode := by
  intro w
  rcases decodeWord_cases w with c | c | c | c | c | c | c | c | c | c | c | c | c | c | c | c <;>
    obtain ⟨h, e⟩ := c
  · exact wellFormed_encode_decode0 h
  · exact e ▸ ⟨rfl, wordNnn_of_op h⟩
  · exact e ▸ ⟨rfl, wordNnn_of_op h⟩
  · exact e ▸ ⟨rfl, wordXKk_of_op h⟩
  · exact e ▸ ⟨rfl, wordXKk_of_op h⟩
  · exact e ▸ ⟨rfl, wordXYN_of_op h⟩
  · exact e ▸ ⟨rfl, wordXKk_of_op h⟩
  · exact e ▸ ⟨rfl, wordXKk_of_op h⟩
  · exact e ▸ wellFormed_encode_decode8 h
  · exact e ▸ ⟨rfl, wordXYN_of_op h⟩
  · exact e ▸ ⟨rfl, wordNnn_of_op h⟩
  · exact e ▸ ⟨rfl, wordNnn_of_op h⟩
  · exact e ▸ ⟨rfl, wordXKk_of_op h⟩
  · exact e ▸ ⟨rfl, wordXYN_of_op h⟩
  · exact e ▸ wellFormed_encode_decodeE h
  · exact e ▸ wellFormed_encode_decodeF h

theorem wellFormed_decodeWord (w : Word) : (decodeWord w).wellFormed = true := (encodeOfDecode w).1

@[simp] theorem encode_decodeWord (w : Word) : encode (decodeWord w) = w := (encodeOfDecode w).2

/-! ## The decoder and the opcode map -/

open Laws.EncodingRow in
/-- The rows that select an instruction's word, by the law of each instruction. -/
theorem selects_encode_iff_rowNumber : ∀ i : Instr, Laws.EncodingRow.Statement i
  | .cls => cls
  | .ret => ret
  | .jp nnn => jp nnn
  | .call nnn => call nnn
  | .seByte x kk => seByte x kk
  | .sneByte x kk => sneByte x kk
  | .seReg x y n => seReg x y n
  | .ldByte x kk => ldByte x kk
  | .addByte x kk => addByte x kk
  | .ldReg x y => ldReg x y
  | .orReg x y => orReg x y
  | .andReg x y => andReg x y
  | .xorReg x y => xorReg x y
  | .addReg x y => addReg x y
  | .subReg x y => subReg x y
  | .shr x y => shr x y
  | .subnReg x y => subnReg x y
  | .shl x y => shl x y
  | .sneReg x y n => sneReg x y n
  | .ldI nnn => ldI nnn
  | .jpV0 nnn => jpV0 nnn
  | .rnd x kk => rnd x kk
  | .drw x y n => drw x y n
  | .skp x => skp x
  | .sknp x => sknp x
  | .ldVxDt x => ldVxDt x
  | .ldVxK x => ldVxK x
  | .ldDtVx x => ldDtVx x
  | .ldStVx x => ldStVx x
  | .addI x => addI x
  | .ldF x => ldF x
  | .ldB x => ldB x
  | .storeRegs x => storeRegs x
  | .loadRegs x => loadRegs x
  | .nop w => nop w

/-- A word is the word of what it decodes to, so the rows that select it are that instruction's (30_encoding R92). -/
theorem selects_iff_rowNumber_decodeWord (w : Word) (r : OpcodeRow) (hr : r ∈ opcodeRows) :
    r.selects w = true ↔ r.number = (decodeWord w).rowNumber := by
  simpa using selects_encode_iff_rowNumber (decodeWord w) (wellFormed_decodeWord w) r hr

/-- Every instruction but NOP has a row among the 34 that a match and a mask select (30_encoding R92). -/
theorem Instr.nop_or_exists_row (i : Instr) : (∃ w, i = .nop w) ∨ ∃ r ∈ opcodeRows, r.number = i.rowNumber := by
  have numbers : ∀ k < 35, 0 < k → ∃ r ∈ opcodeRows, r.number = k := by decide
  cases i with
  | nop w => exact .inl ⟨w, rfl⟩
  | _ => exact .inr (numbers _ (by simp [Instr.rowNumber]) (by simp [Instr.rowNumber]))

/-- The words that decode to NOP are the NOP space (30_encoding R93). -/
theorem decodeWord_eq_nop_iff (w : Word) : decodeWord w = .nop w ↔ isNopWord w = true := by
  constructor
  · intro e
    simpa [e, Instr.wellFormed] using wellFormed_decodeWord w
  · intro h
    rcases Instr.nop_or_exists_row (decodeWord w) with ⟨w', e⟩ | ⟨r, hr, hnumber⟩
    · have same : w' = w := by simpa [e, encode] using encode_decodeWord w
      rw [e, same]
    · have selected : r.selects w = true := (selects_iff_rowNumber_decodeWord w r hr).mpr hnumber
      exact absurd ((isNopWord_iff w).mp h r hr) (by simp [selected])

/-- Settles O3, from the law of each instruction's row through the word that the instruction encodes to. -/
theorem decodeSelectsOpcodeMapRow : Obligations.DecodeSelectsOpcodeMapRow := fun w =>
  ⟨selects_iff_rowNumber_decodeWord w, ((decodeWord_eq_nop_iff w).trans (isNopWord_iff w)).symm⟩

/-! ## Decoding undoes encoding -/

/-- Settles O1: by the shape of the instruction's word, whose fields the decoder reads back; a NOP's word is of the NOP
space. -/
theorem decodeOfEncode : Obligations.DecodeOfEncode := by
  intro i hi
  cases i with
  | cls | ret => decide
  | jp | call | ldI | jpV0 => simp [encode, decodeWord, opField_wordNnn, nnnField_wordNnn]
  | seByte | sneByte | ldByte | addByte | rnd =>
    simp [encode, decodeWord, opField_wordXKk, xField_wordXKk, kkField_wordXKk]
  | seReg | sneReg | drw =>
    simp [encode, decodeWord, opField_wordXYN, xField_wordXYN, yField_wordXYN, nField_wordXYN]
  | ldReg | orReg | andReg | xorReg | addReg | subReg | shr | subnReg | shl =>
    simp [encode, decodeWord, decode8, opField_wordXYN, xField_wordXYN, yField_wordXYN, nField_wordXYN]
  | skp | sknp => simp [encode, decodeWord, decodeE, opField_wordXKk, xField_wordXKk, kkField_wordXKk]
  | ldVxDt | ldVxK | ldDtVx | ldStVx | addI | ldF | ldB | storeRegs | loadRegs =>
    simp [encode, decodeWord, decodeF, opField_wordXKk, xField_wordXKk, kkField_wordXKk]
  | nop w => exact (decodeWord_eq_nop_iff w).mpr hi

/-! ## Words written out -/

/-- Settles O4, by running the decoder on each word. -/
theorem sourceDecodeExamples : Obligations.SourceDecodeExamples := by
  unfold Obligations.SourceDecodeExamples
  decide

/-- Settles O5, by running the decoder on each word. -/
theorem decodeWordsOfEachFamily : Obligations.DecodeWordsOfEachFamily := by
  unfold Obligations.DecodeWordsOfEachFamily
  decide

end Sys2Proof

namespace Sys2Proof.Machine

/-! ## Every step completes -/

/-- With sp at most 64 every instruction completes: RET, the only one that can stop, then finds its bytes. -/
theorem exec_completes (i : Instr) {s : State} (hsp : s.sp.toNat ≤ 64) : ∃ t, exec i s = .next t := by
  have quiet := exec_of_quiet i s
  cases i with
  | ret =>
    obtain ⟨-, e⟩ | ⟨hpast, -⟩ | ⟨-, -, target, e⟩ := exec_ret_cases (s := s) rfl
    · exact ⟨_, e⟩
    · omega
    · exact ⟨_, e⟩
  | call nnn => obtain ⟨-, e⟩ | ⟨-, target, stack, e⟩ := exec_call_cases (nnn := nnn) (s := s) rfl <;> exact ⟨_, e⟩
  | ldVxK x => obtain ⟨-, e⟩ | ⟨-, e⟩ := exec_ldVxK_cases (x := x) (s := s) rfl <;> exact ⟨_, e⟩
  | _ => exact (quiet rfl nofun).imp fun _ h => h.1

theorem tick_completes {s : State} (hsp : s.sp.toNat ≤ 64) : ∃ t, tick s = .next t := by
  cases hf : s.faulted with
  | true => exact ⟨s, tick_of_faulted s hf⟩
  | false =>
    rw [tick_of_not_faulted s hf]
    exact exec_completes _ hsp

/-- Every host operation completes, a Load while it keeps the host's duty (60_exceptions R230, R233). -/
theorem perform_completes (op : HostOp) {s : State} (hsp : s.sp.toNat ≤ 64)
    (hload : ∀ program, op = .load program → program.length ≤ maxProgram) : ∃ t, perform op s = .next t := by
  cases op with
  | tick => exact tick_completes hsp
  | load program => exact ⟨_, State.load_of_fits (hload program rfl)⟩
  | timerTick | reset | setInput => exact ⟨_, rfl⟩

/-- Settles O14: taking the next operation off leaves sp, and then that operation completes. -/
theorem everyStepCompletes : Obligations.EveryStepCompletes := by
  intro s ⟨hsp, _⟩ hload
  exact perform_completes s.nextOp (s := s.takeOp) hsp hload

end Sys2Proof.Machine

/-! The family 40_control_flow: the instruction cycle, NOP, jumps, skips, calls and returns. -/

namespace Sys2Proof.Machine

/-! ## The instruction cycle -/

/-- Decoding the two bytes at an address is decoding the word a fetch joins from them (20_memory R54, 30_encoding R84). -/
theorem decodeWord_fetchWord_of_decode {s : State} {a : Word} {i : Instr}
    (h : decode [s.memRead a, s.memRead (a + 1)] = .ok (i, [])) : decodeWord (s.fetchWord a) = i := by
  rw [decode_two] at h
  cases h
  rfl

/-- Settles O7: the tick of the state with the operation taken off, whose pc and memory are the old ones. -/
theorem tickRunsDecodedInstruction : Obligations.TickRunsDecodedInstruction := by
  intro s i hf hop hd
  have fetched : decodeWord (s.takeOp.fetchWord s.takeOp.pc) = i := decodeWord_fetchWord_of_decode hd
  rw [step_of_tick s hop, tick_of_not_faulted s.takeOp hf, fetched]
  rfl

/-- Settles O8: taking the tick off the schedule is all a step then does. -/
theorem faultedTickChangesNothing : Obligations.FaultedTickChangesNothing := by
  intro s hf hop
  exact (step_of_tick s hop).trans (tick_of_faulted s.takeOp hf)

/-! ## NOP and jumps -/

/-- Settles O19, by what advance(2) does to pc. -/
theorem nopAdvancesOnly : Obligations.NopAdvancesOnly := fun _ s =>
  congrArg Host.Outcome.next (State.advance_eq s 2)

theorem address_toNat (nnn : Addr) : (address nnn).toNat = nnn.toNat :=
  BitVec.toNat_setWidth_of_le (by decide)

/-- A 12-bit address is below 4096, so jump_to takes it as it is (40_control_flow R111). -/
theorem State.jumpTo_address (s : State) (nnn : Addr) :
    s.jumpTo (address nnn) = { s with pc := BitVec.ofNat 16 nnn.toNat } := by
  rw [State.jumpTo_eq, address_toNat, Nat.mod_eq_of_lt nnn.isLt]

/-- The target of JP V0,nnn, at most 0x10FE, fits 16 bits (40_control_flow R122). -/
theorem State.v0Target_toNat (s : State) (nnn : Addr) : (s.v0Target nnn).toNat = nnn.toNat + (s.reg 0).toNat := by
  have widened : (widen (s.reg 0)).toNat = (s.reg 0).toNat := BitVec.toNat_setWidth_of_le (by decide)
  rw [State.v0Target, BitVec.toNat_add, address_toNat, widened]
  omega

/-- Settles O20: jump_to of a 12-bit address. -/
theorem jumpSetsPc : Obligations.JumpSetsPc := fun nnn s =>
  congrArg Host.Outcome.next (State.jumpTo_address s nnn)

/-- Settles O21: jump_to reduces the unwrapped sum modulo 4096. -/
theorem computedJumpAddsV0 : Obligations.ComputedJumpAddsV0 := by
  intro nnn s
  rw [← State.v0Target_toNat, ← State.jumpTo_eq]
  rfl

/-! ## Skips -/

/-- A conditional skip, its condition as a proposition (40_control_flow R113). -/
theorem State.skipIf_iff (s : State) {c : Bool} {p : Prop} [Decidable p] (h : c = true ↔ p) :
    s.skipIf c = { s with pc := s.pcPlus (if p then 4 else 2) } := by
  by_cases hp : p
  · rw [if_pos hp, h.mpr hp]
    exact State.advance_eq s 4
  · rw [if_neg hp, Bool.eq_false_iff.mpr (mt h.mp hp)]
    exact State.advance_eq s 2

/-- SE and SNE on a pair of bytes: the one goes on 4 bytes where they are equal, the other where they differ, each 2
otherwise (40_control_flow R118 to R121). -/
theorem State.skipIf_on_bytes (s : State) (a b : Byte) :
    (.next (s.skipIf (a == b)) : Result) = .next { s with pc := s.pcPlus (if a = b then 4 else 2) } ∧
      (.next (s.skipIf (a != b)) : Result) = .next { s with pc := s.pcPlus (if a ≠ b then 4 else 2) } :=
  ⟨congrArg Host.Outcome.next (s.skipIf_iff beq_iff_eq), congrArg Host.Outcome.next (s.skipIf_iff bne_iff_ne)⟩

/-- Settles O28: the two skips on Vx and the literal byte. -/
theorem byteSkips : Obligations.ByteSkips := fun x kk s => s.skipIf_on_bytes (s.reg x) kk

/-- Settles O29: the two skips on Vx and Vy; the low nibble is no operand of them. -/
theorem registerSkips : Obligations.RegisterSkips := fun x y _ s => s.skipIf_on_bytes (s.reg x) (s.reg y)

/-! ## Calls and returns -/

/-- The high byte in the spec's arithmetic (20_memory R60). -/
theorem highByte_eq (w : Word) : highByte w = BitVec.ofNat 8 (w.toNat / 256) :=
  congrArg (BitVec.ofNat 8) (Nat.shiftRight_eq_div_pow w.toNat 8)

/-- The low byte in the spec's arithmetic (20_memory R60). -/
theorem lowByte_eq (w : Word) : lowByte w = BitVec.ofNat 8 (w.toNat % 256) := by
  simp [lowByte, BitVec.extractLsb', ← BitVec.toNat_inj]

/-- The two bytes of a return address (40_control_flow R117). -/
theorem highByte_add_two (pc : Word) : highByte (pc + 2) = BitVec.ofNat 8 ((pc.toNat + 2) % 65536 / 256) :=
  highByte_eq _

theorem lowByte_add_two (pc : Word) : lowByte (pc + 2) = BitVec.ofNat 8 ((pc.toNat + 2) % 256) := by
  have sum : (pc + 2).toNat = (pc.toNat + 2) % 65536 := rfl
  rw [lowByte_eq, sum, Nat.mod_mod_of_dvd _ (by decide)]

/-- Settles O22: push writes the two bytes of pc + 2, jump_to takes nnn as it is. -/
theorem callPushesReturnAddress : Obligations.CallPushesReturnAddress := by
  intro nnn s hroom
  have hsp : s.sp + 2 = BitVec.ofNat 8 (s.sp.toNat + 2) := by simp [BitVec.ofNat_add]
  refine ⟨_, (execCall_pushes nnn s hroom).trans (congrArg Host.Outcome.next (State.jumpTo_address _ nnn)),
    by rw [hsp], fun j hj => ?_⟩
  simp only [Vector.getElem_set, highByte_add_two, lowByte_add_two]
  by_cases hhigh : j = s.sp.toNat
  · simp [hhigh]
  · by_cases hlow : j = s.sp.toNat + 1
    · simp [hlow]
    · simp [hhigh, hlow, eq_comm]

/-- Settles O23: pop reads the two bytes below sp, jump_to reduces their value modulo 4096. -/
theorem retPopsReturnAddress : Obligations.RetPopsReturnAddress := by
  intro s h₂ h
  have hsp : s.sp - 2 = BitVec.ofNat 8 (s.sp.toNat - 2) := by
    rw [← toNat_sub_two h₂, BitVec.ofNat_toNat, BitVec.setWidth_eq]
  rw [← joinBytes_toNat, ← hsp]
  exact (execRet_value s h₂ h).trans (congrArg Host.Outcome.next (State.jumpTo_eq _ _))

/-- Settles O24, by the fault outcomes of CALL and RET. -/
theorem stackFaultsChangeOnlyLatchAndStatus : Obligations.StackFaultsChangeOnlyLatchAndStatus :=
  ⟨execCall_full, execRet_empty⟩

/-- A push neither reads nor writes pc. -/
theorem State.push_jumpTo {s t : State} {v : Word} (a : Word) (hroom : s.sp.toNat ≤ 62) (h : s.push v = .ok t) :
    (s.jumpTo a).push v = .ok (t.jumpTo a) := by
  rw [State.push_ok s v hroom] at h
  cases h
  exact State.push_ok (s.jumpTo a) v hroom

/-- CALL where its push has room (40_control_flow R117). -/
theorem exec_call_of_push {nnn : Addr} {s t : State} (h : s.push (s.pc + 2) = .ok t) :
    exec (.call nnn) s = .next (t.jumpTo (address nnn)) := by
  simp only [exec, execCall, h]

/-- RET where its pop finds a value (40_control_flow R115). -/
theorem exec_ret_of_pop {s t : State} {v : Word} (h : s.pop = .value v t) : exec .ret s = .next (t.jumpTo v) := by
  simp only [exec, execRet, h]

/-- Settles O27: the pop of RET undoes the push of CALL, since the jump in between moves pc alone. -/
theorem callThenRetReturns : Obligations.CallThenRetReturns := by
  intro nnn s hroom
  have pushed := State.push_ok s (s.pc + 2) hroom
  have popped := State.pop_of_push (s := s.jumpTo (address nnn)) hroom (State.push_jumpTo (address nnn) hroom pushed)
  refine ⟨_, _, exec_call_of_push pushed, exec_ret_of_pop popped, ?_⟩
  have hpc : (s.pc + 2).toNat % 4096 = (s.pc.toNat + 2) % 4096 := Nat.mod_mod_of_dvd _ (by decide)
  rw [State.jumpTo_eq, hpc]
  rfl

end Sys2Proof.Machine

/-! The family 41_register_alu: register loads, arithmetic, logic, shifts and the random byte. -/

namespace Sys2Proof.Machine

/-! ## Writing one register, with or without VF -/

/-- An instruction that changes the register file alone and goes on to the next one (41_register_alu R130). -/
theorem setsRegisters_of_nextInstr {i : Instr} {s t : State} {regs : Nibble → Byte}
    (h : exec i s = .next t.nextInstr) (frame : t = { s with v := t.v }) (hregs : ∀ r, t.reg r = regs r) :
    SetsRegisters i s regs := by
  have hpc : t.pcPlus 2 = s.pcPlus 2 := by rw [frame]; rfl
  refine ⟨_, h.trans (congrArg Host.Outcome.next (State.advance_eq t 2)), ?_, hregs⟩
  rw [hpc, frame]

/-- An instruction without a flag. -/
theorem setsRegisters_of_setReg {i : Instr} {s : State} {x : Nibble} {b : Byte}
    (h : exec i s = .next (s.setReg x b).nextInstr) :
    SetsRegisters i s (fun r => if r = x then b else s.reg r) :=
  setsRegisters_of_nextInstr h rfl fun r => (s.reg_setReg x r b).trans (if_congr eq_comm rfl rfl)

/-- An instruction with a flag: VF is written first, so as the destination it keeps the result (10_state R23). -/
theorem setsRegisters_of_setFlagAndReg {i : Instr} {s : State} {x : Nibble} {flag b : Byte}
    (h : exec i s = .next (s.setFlagAndReg flag x b).nextInstr) :
    SetsRegisters i s (fun r => if r = x then b else if r = 0xF then flag else s.reg r) :=
  setsRegisters_of_nextInstr h (s.setFlagAndReg_eq flag x b) fun r =>
    (s.reg_setFlagAndReg flag x r b).trans (if_congr eq_comm rfl (if_congr eq_comm rfl rfl))

/-! ## Results and flags in the spec's arithmetic -/

theorem add_eq_ofNat_mod (a b : Byte) : a + b = BitVec.ofNat 8 ((a.toNat + b.toNat) % 256) := by bv_omega

theorem sub_eq_ofNat_mod (a b : Byte) : a - b = BitVec.ofNat 8 ((256 + a.toNat - b.toNat) % 256) := by bv_omega

theorem shiftRight_one_eq_ofNat (a : Byte) : a >>> 1 = BitVec.ofNat 8 (a.toNat / 2) := by bv_omega

theorem mul_two_eq_ofNat_mod (a : Byte) : a * 2 = BitVec.ofNat 8 (a.toNat * 2 % 256) := by bv_omega

/-- The sum falls below the left operand exactly when it wraps (41_register_alu R137). -/
theorem add_mod_lt_left_iff (a b : Byte) : (a.toNat + b.toNat) % 256 < a.toNat ↔ 255 < a.toNat + b.toNat := by
  have ha := a.isLt
  have hb := b.isLt
  omega

theorem addFlag_eq (a b : Byte) : addFlag a b = if (a.toNat + b.toNat) % 256 < a.toNat then 1 else 0 := by
  simp [addFlag, flagByte, BitVec.lt_def]

theorem noBorrowFlag_eq (a b : Byte) : noBorrowFlag a b = if b.toNat < a.toNat then 1 else 0 := by
  simp [noBorrowFlag, flagByte, BitVec.lt_def]

theorem lowBitFlag_eq (a : Byte) : lowBitFlag a = BitVec.ofNat 8 (a.toNat % 2) := by
  apply BitVec.eq_of_toNat_eq
  rw [lowBitFlag, BitVec.toNat_and, BitVec.toNat_ofNat]
  exact (Nat.and_one_is_mod a.toNat).trans (by omega)

theorem highBitFlag_eq (a : Byte) : highBitFlag a = BitVec.ofNat 8 (a.toNat / 128) := by
  unfold highBitFlag
  bv_omega

/-! ## Loads, byte addition and logic: no flag -/

/-- Settles O30: each load is one register write. -/
theorem loadsSetOneRegister : Obligations.LoadsSetOneRegister := fun _ _ _ _ =>
  ⟨setsRegisters_of_setReg rfl, setsRegisters_of_setReg rfl⟩

/-- Settles O31: one register write, of a sum that wraps. -/
theorem addByteWrapsWithoutFlag : Obligations.AddByteWrapsWithoutFlag := by
  intro x kk s
  rw [← add_eq_ofNat_mod]
  exact setsRegisters_of_setReg rfl

/-- Settles O32: each of the three is one register write. -/
theorem logicWritesNoFlag : Obligations.LogicWritesNoFlag := fun _ _ _ =>
  ⟨setsRegisters_of_setReg rfl, setsRegisters_of_setReg rfl, setsRegisters_of_setReg rfl⟩

/-! ## Arithmetic and shifts: VF, then the result -/

/-- Settles O33: the flag is read off the wrapped sum, which is below the left operand when it carries. -/
theorem addSetsCarry : Obligations.AddSetsCarry := by
  intro x y s
  refine ⟨?_, add_mod_lt_left_iff (s.reg x) (s.reg y)⟩
  rw [← add_eq_ofNat_mod, ← addFlag_eq]
  exact setsRegisters_of_setFlagAndReg rfl

/-- Settles O34: one subtraction, with its operands in either order. -/
theorem subtractionsSetNoBorrow : Obligations.SubtractionsSetNoBorrow := by
  intro x y s
  simp only [← sub_eq_ofNat_mod, ← noBorrowFlag_eq]
  exact ⟨setsRegisters_of_setFlagAndReg rfl, setsRegisters_of_setFlagAndReg rfl⟩

/-- Settles O35: the flag is the bit that the shift drops; y is no operand. -/
theorem shiftsSetTheBitShiftedOut : Obligations.ShiftsSetTheBitShiftedOut := by
  intro x y s
  rw [← shiftRight_one_eq_ofNat, ← lowBitFlag_eq, ← mul_two_eq_ofNat_mod, ← highBitFlag_eq]
  exact ⟨setsRegisters_of_setFlagAndReg rfl, setsRegisters_of_setFlagAndReg rfl⟩

/-! ## The random byte -/

/-- RND is one register write, then one draw counted (41_register_alu R142). -/
theorem exec_rnd_eq (x : Nibble) (kk : Byte) (s : State) :
    exec (.rnd x kk) s = .next { s.setReg x (Config.randomByte s.draws &&& kk) with
      pc := s.pcPlus 2
      draws := s.draws + 1 } := by
  have advanced := (s.setReg x (Config.randomByte s.draws &&& kk)).advance_eq 2
  have counted := congrArg (fun t : State => { t with draws := s.draws + 1 }) advanced
  exact congrArg Host.Outcome.next counted

/-- Settles O36: the register written reads as the masked draw, whatever byte was drawn. -/
theorem randomByteIsMasked : Obligations.RandomByteIsMasked := fun x kk s =>
  ⟨_, exec_rnd_eq x kk s, rfl, fun r => (s.reg_setReg x r _).trans (if_congr eq_comm rfl rfl)⟩

end Sys2Proof.Machine

/-! The family 42_index_memory: loads of I, the decimal digits, and the transfers between memory and registers. -/

namespace Sys2Proof.Machine

/-! ## The index register and the next instruction -/

/-- advance(2) from a state that has not moved pc yet (40_control_flow R112). -/
theorem State.nextInstr_of_pc {s t : State} (h : t.pc = s.pc) : t.nextInstr = { t with pc := s.pcPlus 2 } := by
  have same : t.pcPlus 2 = s.pcPlus 2 := by simp only [State.pcPlus, h]
  rw [← same]
  exact t.advance_eq 2

theorem widen_toNat (b : Byte) : (widen b).toNat = b.toNat := BitVec.toNat_setWidth_of_le (by decide)

/-- The address of byte k of a transfer through I, in the spec's arithmetic (42_index_memory R150). -/
theorem indirect_eq (i : Word) (k : Nat) : indirect i k = BitVec.ofNat 16 ((i.toNat + k) % 65536) := by
  apply BitVec.eq_of_toNat_eq
  simp [indirect]

/-- An instruction that sets I alone and goes on to the next one (42_index_memory R151 to R153). -/
theorem exec_of_setIndex {i : Instr} {s : State} {a : Word} {n : Nat}
    (h : exec i s = .next { s with i := a }.nextInstr) (ha : a.toNat = n) :
    exec i s = .next { s with i := BitVec.ofNat 16 n, pc := s.pcPlus 2 } := by
  rw [h, ← ha, BitVec.ofNat_toNat, BitVec.setWidth_eq]
  exact congrArg Host.Outcome.next (State.nextInstr_of_pc rfl)

/-- Settles O37: neither value needs more than 16 bits. -/
theorem indexLoads : Obligations.IndexLoads := by
  intro nnn x s
  have fits : (s.reg x).toNat * 5 < 65536 := by have := (s.reg x).isLt; omega
  have glyph : (widen (s.reg x) * 5).toNat = (s.reg x).toNat * 5 := by
    rw [BitVec.toNat_mul, widen_toNat]
    exact Nat.mod_eq_of_lt fits
  exact ⟨exec_of_setIndex rfl (address_toNat nnn), exec_of_setIndex rfl glyph⟩

/-- Settles O38: a 16-bit sum. -/
theorem addIndexWraps : Obligations.AddIndexWraps := fun x s =>
  exec_of_setIndex rfl (by rw [BitVec.toNat_add, widen_toNat])

/-! ## The decimal digits -/

theorem bcdHundreds_toNat (v : Byte) : (bcdHundreds v).toNat = v.toNat / 100 := BitVec.toNat_udiv

theorem bcdTens_toNat (v : Byte) : (bcdTens v).toNat = v.toNat / 10 % 10 := by
  rw [bcdTens, BitVec.toNat_umod, BitVec.toNat_udiv]
  rfl

theorem bcdOnes_toNat (v : Byte) : (bcdOnes v).toNat = v.toNat % 10 := BitVec.toNat_umod

/-- Settles O39: the digits' values, and a byte is below 256. -/
theorem bcdIsTheDecimalSplit : Obligations.BcdIsTheDecimalSplit := by
  refine ⟨fun v => ?_, by decide, by decide, by decide⟩
  rw [bcdHundreds_toNat, bcdTens_toNat, bcdOnes_toNat]
  have := v.isLt
  exact ⟨rfl, rfl, rfl, by omega, by omega, by omega⟩

/-- Bytes of a transfer fewer than 4096 apart lie at different addresses (42_index_memory R150). -/
theorem physical_indirect_ne {i : Word} {j k a : Nat} (hjk : j < k) (hk : k < 4096)
    (h : physical (indirect i k) = a) : physical (indirect i j) ≠ a := by
  rw [physical_indirect] at h ⊢
  omega

/-- What a read meets after LD B,Vx. The last write would come first, but as the three addresses differ the order is
free (42_index_memory R155). -/
theorem memRead_of_ldB {x : Nibble} {s t : State} (hw : Memory.wf s.mem) (h : exec (.ldB x) s = .next t) (a : Word) :
    t.memRead a =
      if physical (indirect s.i 0) = physical a then bcdHundreds (s.reg x)
      else if physical (indirect s.i 1) = physical a then bcdTens (s.reg x)
      else if physical (indirect s.i 2) = physical a then bcdOnes (s.reg x)
      else s.memRead a := by
  cases h
  have hw₁ := State.memWrite_wf s hw (indirect s.i 0) (bcdHundreds (s.reg x))
  have hw₂ := State.memWrite_wf _ hw₁ (indirect s.i 1) (bcdTens (s.reg x))
  have apart (j k : Nat) (hjk : j < k ∧ k < 3) :
      physical (indirect s.i k) = physical a → physical (indirect s.i j) ≠ physical a :=
    physical_indirect_ne hjk.1 (by omega)
  rw [State.nextInstr_eq, State.advance_memRead, State.memRead_memWrite _ hw₂, State.memRead_memWrite _ hw₁,
    State.memRead_memWrite _ hw, ite_ite_comm _ _ _ _ (apart 0 1 (by decide)),
    ite_ite_comm _ _ _ _ (apart 0 2 (by decide)), ite_ite_comm _ _ _ _ (apart 1 2 (by decide))]

/-- Settles O40: a read after the three writes, in the spec's arithmetic. -/
theorem bcdStoresThreeDigits : Obligations.BcdStoresThreeDigits := by
  intro x s hw
  refine ⟨_, rfl, State.nextInstr_of_pc rfl, fun a => ?_⟩
  rw [memRead_of_ldB hw rfl a, ← bcdHundreds_toNat, ← bcdTens_toNat, ← bcdOnes_toNat]
  simp only [BitVec.ofNat_toNat, BitVec.setWidth_eq, physical_indirect, eq_comm (a := a.toNat % 4096)]
  rfl

/-! ## Registers to memory and back -/

/-- LD [I],Vx, with I and pc in the spec's arithmetic (42_index_memory R156). -/
theorem exec_storeRegs_eq (x : Nibble) (s : State) :
    exec (.storeRegs x) s = .next { s with
      mem := storeRegisters s.v s.i s.mem (x.toNat + 1)
      i := BitVec.ofNat 16 ((s.i.toNat + x.toNat + 1) % 65536)
      pc := s.pcPlus 2 } := by
  rw [Nat.add_assoc, ← indirect_eq]
  exact congrArg Host.Outcome.next (State.nextInstr_of_pc rfl)

/-- LD Vx,[I], with I and pc in the spec's arithmetic (42_index_memory R157). -/
theorem exec_loadRegs_eq (x : Nibble) (s : State) :
    exec (.loadRegs x) s = .next { s with
      v := loadRegisters s.mem s.i s.v (x.toNat + 1)
      i := BitVec.ofNat 16 ((s.i.toNat + x.toNat + 1) % 65536)
      pc := s.pcPlus 2 } := by
  rw [Nat.add_assoc, ← indirect_eq]
  exact congrArg Host.Outcome.next (State.nextInstr_of_pc rfl)

/-- LD [I],Vx leaves every byte outside I .. I + x (42_index_memory R156). -/
theorem memRead_of_storeRegs_other {x : Nibble} {s t : State} (hw : Memory.wf s.mem)
    (h : exec (.storeRegs x) s = .next t) {a : Word}
    (ha : ∀ k : Nibble, k.toNat ≤ x.toNat → physical a ≠ physical (indirect s.i k.toNat)) :
    t.memRead a = s.memRead a := by
  cases h
  refine storeRegisters_read_other s.v s.i s.mem hw _ a fun k hk => ?_
  have hk' : (BitVec.ofNat 4 k).toNat = k := Nat.mod_eq_of_lt (by omega)
  exact hk' ▸ ha (BitVec.ofNat 4 k) (by omega)

/-- A register after LD Vx,[I]: the byte at its address up to Vx, its old value above (42_index_memory R157). -/
theorem reg_of_loadRegs {x : Nibble} {s t : State} (h : exec (.loadRegs x) s = .next t) (r : Nibble) :
    t.reg r = if r.toNat ≤ x.toNat then s.memRead (indirect s.i r.toNat) else s.reg r := by
  cases h
  exact (loadRegisters_get s.mem s.i s.v _ x.isLt r).trans (if_congr Nat.lt_succ_iff rfl rfl)

/-- Settles O41: what lies at the addresses stored to, and what lies elsewhere. -/
theorem storeRegistersInBulk : Obligations.StoreRegistersInBulk := by
  intro x s hw
  have h := exec_storeRegs_eq x s
  refine ⟨_, h, rfl, fun k hk => memRead_of_storeRegs hw h hk, fun k => physical_indirect s.i k.toNat, fun a ha => ?_⟩
  refine memRead_of_storeRegs_other hw h fun k hk => ?_
  rw [physical_indirect]
  exact ha k hk

/-- Settles O42: the byte a register is loaded with lies at its address modulo 4096. -/
theorem loadRegistersInBulk : Obligations.LoadRegistersInBulk := by
  intro x s
  have h := exec_loadRegs_eq x s
  refine ⟨_, h, rfl, fun r => ?_⟩
  rw [← physical_indirect]
  exact reg_of_loadRegs h r

/-- Settles O43: each register is loaded from the address it was stored at. -/
theorem storeThenLoadGivesRegistersBack : Obligations.StoreThenLoadGivesRegistersBack := by
  intro x s t v hw h
  obtain ⟨u, hu⟩ : ∃ u, exec (.loadRegs x) { t with i := s.i, v := v } = .next u := ⟨_, rfl⟩
  refine ⟨u, hu, by cases h; cases hu; rfl, fun r hr => ?_⟩
  calc u.reg r = t.memRead (indirect s.i r.toNat) := (reg_of_loadRegs hu r).trans (if_pos hr)
    _ = s.reg r := memRead_of_storeRegs hw h hr

end Sys2Proof.Machine

/-! The family 43_display: clearing the screen, the sprite row, and the sprite. -/

namespace Sys2Proof.Machine

/-! ## Clearing the screen -/

/-- Settles O45: the new framebuffer is the blank one. -/
theorem clsBlanksTheScreen : Obligations.ClsBlanksTheScreen := fun _ =>
  ⟨_, congrArg Host.Outcome.next (State.nextInstr_of_pc rfl), rfl, fun j _ => Framebuffer.get_blank j⟩

/-! ## What a sprite row XORs into the screen -/

/-- What row p drawn at (px, py) XORs into FB[j]: its left part, its right part, or nothing (43_display R172). -/
def rowPattern (p : Byte) (px py j : Nat) : Byte :=
  if j = 8 * (py % 32) + px % 64 / 8 then p >>> (px % 64 % 8)
  else if j = 8 * (py % 32) + (px % 64 / 8 + 1) % 8 then shlOrZero p (8 - px % 64 % 8)
  else 0

/-- Whether row p drawn at (px, py) inverts pixel (qx, qy), which lies (qx - px) mod 64 columns right of its start
(43_display R172, D10). -/
def rowPixel (p : Byte) (px py qx qy : Nat) : Bool :=
  decide (qy = py % 32) && decide ((qx + 64 - px % 64) % 64 < 8) && p.getLsbD (7 - (qx + 64 - px % 64) % 64)

theorem get_writePixelRow_eq_xor (fb : Framebuffer) (p : Byte) (px py : Nat) {j : Nat} (hj : j < 256) :
    Framebuffer.get (writePixelRow fb p px py).1 j = Framebuffer.get fb j ^^^ rowPattern p px py j :=
  writePixelRow_get fb p px py j hj

theorem rowPattern_left (p : Byte) (px py : Nat) :
    rowPattern p px py (8 * (py % 32) + px % 64 / 8) = p >>> (px % 64 % 8) := if_pos rfl

theorem rowPattern_right (p : Byte) (px py : Nat) :
    rowPattern p px py (8 * (py % 32) + (px % 64 / 8 + 1) % 8) = shlOrZero p (8 - px % 64 % 8) := by
  rw [rowPattern, if_neg (by omega), if_pos rfl]

/-- A bit of the bytes XORed in is a pixel of the row: on the left part from column px on, on the right part up to the
eighth column. -/
theorem rowPattern_getLsbD (p : Byte) (px py : Nat) {qx : Nat} (qy : Nat) (hx : qx < 64) :
    (rowPattern p px py (8 * qy + qx / 8)).getLsbD (7 - qx % 8) = rowPixel p px py qx qy := by
  unfold rowPattern
  split
  case isTrue left =>
    have row : qy = py % 32 := by omega
    rw [BitVec.getLsbD_ushiftRight, rowPixel, decide_eq_true row, Bool.true_and]
    by_cases before : qx % 8 < px % 64 % 8
    · rw [decide_eq_false (by omega), Bool.false_and, BitVec.getLsbD_of_ge _ _ (by omega)]
    · rw [decide_eq_true (by omega), Bool.true_and]
      congr 1
      omega
  case isFalse notLeft =>
    split
    case isTrue right =>
      have row : qy = py % 32 := by omega
      rw [shlOrZero_getLsbD p _ _ (by omega) (by omega), rowPixel, decide_eq_true row, Bool.true_and]
      by_cases inside : qx % 8 < px % 64 % 8
      · rw [decide_eq_true (by omega), decide_eq_true (by omega)]
        congr 2
        omega
      · rw [decide_eq_false (by omega), decide_eq_false (by omega)]
        rfl
    case isFalse notRight =>
      have outside : ¬ (qy = py % 32 ∧ (qx + 64 - px % 64) % 64 < 8) := by omega
      rw [rowPixel, ← Bool.decide_and, decide_eq_false outside]
      exact BitVec.getLsbD_zero

/-- A sprite row pixel by pixel (43_display R172). -/
theorem hostPixel_writePixelRow (fb : Framebuffer) (p : Byte) (px py : Nat) {qx qy : Nat} (hx : qx < 64) (hy : qy < 32) :
    hostPixel (writePixelRow fb p px py).1 qx qy = (hostPixel fb qx qy ^^ rowPixel p px py qx qy) := by
  have onScreen : 8 * qy + qx / 8 < 256 := by omega
  rw [hostPixel, get_writePixelRow_eq_xor fb p px py onScreen, BitVec.getLsbD_xor, rowPattern_getLsbD p px py qy hx]
  rfl

/-- Settles O46: each bit of a byte XORed in is a pixel of the row. -/
theorem pixelRowXorsEightPixels : Obligations.PixelRowXorsEightPixels := fun fb p px py _ _ hx hy =>
  hostPixel_writePixelRow fb p px py hx hy

/-! ## Collisions -/

theorem ne_zero_iff_exists_bit (b : Byte) : b ≠ 0 ↔ ∃ k < 8, b.getLsbD k = true := by
  refine ⟨fun h => ?_, fun ⟨k, _, hk⟩ hb => ?_⟩
  · by_contra dark
    push Not at dark
    exact h (BitVec.eq_of_getLsbD_eq fun k hk => by simpa using dark k hk)
  · simp [hb] at hk

/-- A row collides where a byte XORed in meets a bit that is set (43_display R173). -/
theorem collision_iff_exists_byte (fb : Framebuffer) (p : Byte) (px py : Nat) :
    (writePixelRow fb p px py).2 = true ↔ ∃ j < 256, Framebuffer.get fb j &&& rowPattern p px py j ≠ 0 := by
  rw [writePixelRow_collision, ← rowPattern_left p px py, ← rowPattern_right p px py]
  refine ⟨fun h => h.elim (fun h => ⟨_, by omega, h⟩) (fun h => ⟨_, by omega, h⟩), fun ⟨j, _, hj⟩ => ?_⟩
  by_cases left : j = 8 * (py % 32) + px % 64 / 8
  · exact .inl (left ▸ hj)
  · by_cases right : j = 8 * (py % 32) + (px % 64 / 8 + 1) % 8
    · exact .inr (right ▸ hj)
    · simp [rowPattern, left, right] at hj

/-- A row collides where one of its pixels is lit already (43_display R173). -/
theorem collision_iff_exists_pixel (fb : Framebuffer) (p : Byte) (px py : Nat) :
    (writePixelRow fb p px py).2 = true ↔
      ∃ qx qy, qx < 64 ∧ qy < 32 ∧ hostPixel fb qx qy = true ∧ rowPixel p px py qx qy = true := by
  rw [collision_iff_exists_byte]
  constructor
  · rintro ⟨j, hj, both⟩
    obtain ⟨k, hk, bit⟩ := (ne_zero_iff_exists_bit _).mp both
    have byte : 8 * (j / 8) + (8 * (j % 8) + (7 - k)) / 8 = j := by omega
    have column : 7 - (8 * (j % 8) + (7 - k)) % 8 = k := by omega
    refine ⟨8 * (j % 8) + (7 - k), j / 8, by omega, by omega, ?_⟩
    rw [← rowPattern_getLsbD p px py _ (by omega), hostPixel, byte, column]
    simpa using bit
  · rintro ⟨qx, qy, hx, hy, lit, pixel⟩
    refine ⟨8 * qy + qx / 8, by omega, (ne_zero_iff_exists_bit _).mpr ⟨7 - qx % 8, by omega, ?_⟩⟩
    rw [BitVec.getLsbD_and, rowPattern_getLsbD p px py qy hx, pixel, Bool.and_true]
    exact lit

/-- Settles O47: the pixels that a row clears are its pixels that were lit. -/
theorem collisionIffLitPixelCleared : Obligations.CollisionIffLitPixelCleared := by
  intro fb p px py
  rw [collision_iff_exists_pixel]
  refine exists₂_congr fun qx qy => and_congr_right fun hx => and_congr_right fun hy => and_congr_right fun lit => ?_
  rw [hostPixel_writePixelRow fb p px py hx hy, lit, Bool.true_xor, Bool.not_eq_false']

/-! ## Byte-aligned columns -/

/-- At a byte-aligned column the right part is empty (43_display R172). -/
theorem rowPattern_of_aligned (p : Byte) {px : Nat} (py j : Nat) (h : px % 8 = 0) :
    rowPattern p px py j = if j = 8 * (py % 32) + px % 64 / 8 then p else 0 := by
  have offset : px % 64 % 8 = 0 := by omega
  rw [rowPattern, offset, BitVec.ushiftRight_zero]
  exact if_congr Iff.rfl rfl (ite_self 0)

/-- Settles O48: the one byte XORed in is the row itself. -/
theorem alignedRowIsByteXor : Obligations.AlignedRowIsByteXor := by
  intro fb p px py h
  refine ⟨fun j hj => ?_, ?_⟩
  · rw [get_writePixelRow_eq_xor fb p px py hj, rowPattern_of_aligned p py j h]
    split <;> simp
  · have offset : px % 64 % 8 = 0 := by omega
    rw [writePixelRow_collision, offset]
    simp [shlOrZero]

/-! ## Drawing a sprite -/

/-- The screen after DRW Vx,Vy,n and whether a row collided (43_display R175). -/
def State.drawn (s : State) (x y n : Nibble) : Framebuffer × Bool :=
  drawRows s.mem s.i (s.reg x).toNat (s.reg y).toNat s.fb n.toNat

/-- DRW, with pc in the spec's arithmetic (43_display R175). -/
theorem exec_drw_eq (x y n : Nibble) (s : State) :
    exec (.drw x y n) s = .next { s with
      v := Registers.put s.v vf (flagByte (s.drawn x y n).2)
      fb := (s.drawn x y n).1
      pc := s.pcPlus 2 } :=
  congrArg Host.Outcome.next (State.nextInstr_of_pc rfl)

/-- VF after DRW is the collision (43_display R175). -/
theorem flag_of_drw {x y n : Nibble} {s t : State} (h : exec (.drw x y n) s = .next t) :
    t.reg 0xF = flagByte (s.drawn x y n).2 := by
  cases h
  exact (Registers.get_put s.v vf vf _).trans (if_pos rfl)

/-- DRW keeps the other registers (43_display R175). -/
theorem reg_of_drw {x y n r : Nibble} {s t : State} (h : exec (.drw x y n) s = .next t) (hr : r ≠ 0xF) :
    t.reg r = s.reg r := by
  cases h
  exact (Registers.get_put s.v vf r _).trans (if_neg hr.symm)

theorem flagByte_eq_one_iff (c : Bool) : flagByte c = 1 ↔ c = true := by cases c <;> decide

theorem flagByte_eq_zero_or_one (c : Bool) : flagByte c = 0 ∨ flagByte c = 1 := by cases c <;> decide

/-- The address of byte k of a sprite, the sum reduced by its width alone (43_display R175). -/
theorem indirect_eq_ofNat (i : Word) (k : Nat) : indirect i k = BitVec.ofNat 16 (i.toNat + k) := by
  rw [BitVec.ofNat_add, BitVec.ofNat_toNat, BitVec.setWidth_eq]
  rfl

/-- The recursion of drawRows as the loop of 43_display R175. -/
theorem drawRows_eq_foldl (s : State) (px py : Nat) (fb : Framebuffer) (n : Nat) :
    drawRows s.mem s.i px py fb n = (List.range n).foldl (fun acc r =>
      let row := writePixelRow acc.1 (s.memRead (BitVec.ofNat 16 (s.i.toNat + r))) px (py + r)
      (row.1, acc.2 || row.2)) (fb, false) := by
  induction n with
  | zero => rfl
  | succ r ih =>
    rw [List.range_succ, List.foldl_append, ← ih, List.foldl_cons, ← indirect_eq_ofNat]
    rfl

/-- Settles O49: the loop's two results, and VF as the only register written. -/
theorem drawXorsTheRowsInOrder : Obligations.DrawXorsTheRowsInOrder := by
  intro x y n s
  have h := exec_drw_eq x y n s
  refine ⟨_, h, rfl, ?_, ?_, fun r hr => reg_of_drw h hr⟩
  · rw [← drawRows_eq_foldl, flag_of_drw h]
    simp only [flagByte_eq_one_iff, Bool.decide_eq_true]
    rfl
  · rw [flag_of_drw h]
    exact flagByte_eq_zero_or_one _

/-! ## Drawing a sprite twice -/

section
variable (m : Memory) (i : Word) (px py : Nat)

/-- A sprite inverts the same bits whatever the screen shows: those it sets on a blank one (43_display R175). -/
theorem get_drawRows_eq_xor (fb : Framebuffer) (n : Nat) {j : Nat} (hj : j < 256) :
    Framebuffer.get (drawRows m i px py fb n).1 j =
      Framebuffer.get fb j ^^^ Framebuffer.get (drawRows m i px py (Vector.replicate 256 0) n).1 j := by
  induction n with
  | zero => exact BitVec.xor_zero.symm.trans (congrArg _ (Framebuffer.get_blank j).symm)
  | succ r ih => simp only [drawRows_succ, get_writePixelRow_eq_xor _ _ _ _ hj, ih, BitVec.xor_assoc]

theorem drawRows_twice (fb : Framebuffer) (n : Nat) : (drawRows m i px py (drawRows m i px py fb n).1 n).1 = fb := by
  refine Framebuffer.ext_get _ _ fun j hj => ?_
  rw [get_drawRows_eq_xor m i px py _ n hj, get_drawRows_eq_xor m i px py fb n hj, BitVec.xor_assoc, BitVec.xor_self,
    BitVec.xor_zero]

end

/-- A row that does not collide lights its pixels on dark ground and leaves what was lit (43_display R173). -/
theorem writePixelRow_of_no_collision {fb : Framebuffer} {p : Byte} {px py : Nat}
    (h : (writePixelRow fb p px py).2 = false) {qx qy : Nat} (hx : qx < 64) (hy : qy < 32) :
    hostPixel (writePixelRow fb p px py).1 qx qy = (hostPixel fb qx qy || rowPixel p px py qx qy) ∧
      (rowPixel p px py qx qy = true → hostPixel fb qx qy = false) := by
  have dark (pixel : rowPixel p px py qx qy = true) : hostPixel fb qx qy = false := Bool.eq_false_iff.mpr fun lit =>
    Bool.eq_false_iff.mp h ((collision_iff_exists_pixel fb p px py).mpr ⟨qx, qy, hx, hy, lit, pixel⟩)
  refine ⟨?_, dark⟩
  rw [hostPixel_writePixelRow fb p px py hx hy]
  cases pixel : rowPixel p px py qx qy
  · rw [Bool.xor_false, Bool.or_false]
  · rw [dark pixel, Bool.false_xor, Bool.false_or]

section
variable {m : Memory} {i : Word} {px py : Nat} {fb : Framebuffer} {qx qy : Nat} (hx : qx < 64) (hy : qy < 32)
include hx hy

/-- Drawn without a collision, a sprite leaves what was lit (43_display R173). -/
theorem lit_drawRows_of_no_collision {n : Nat} (h : (drawRows m i px py fb n).2 = false)
    (lit : hostPixel fb qx qy = true) : hostPixel (drawRows m i px py fb n).1 qx qy = true := by
  induction n with
  | zero => exact lit
  | succ r ih =>
    obtain ⟨before, row⟩ := Bool.or_eq_false_iff.mp h
    rw [drawRows_succ, (writePixelRow_of_no_collision row hx hy).1, ih before, Bool.true_or]

/-- Drawn without a collision, a sprite finds its pixels dark and leaves them lit. -/
theorem drawRows_lights_of_no_collision {n r : Nat} (h : (drawRows m i px py fb n).2 = false) (hr : r < n)
    (pixel : rowPixel (m.readAt (indirect i r)) px (py + r) qx qy = true) :
    hostPixel fb qx qy = false ∧ hostPixel (drawRows m i px py fb n).1 qx qy = true := by
  induction n with
  | zero => omega
  | succ k ih =>
    obtain ⟨before, row⟩ := Bool.or_eq_false_iff.mp h
    obtain ⟨after, dark⟩ := writePixelRow_of_no_collision row hx hy
    rw [drawRows_succ, after]
    rcases Nat.lt_succ_iff_lt_or_eq.mp hr with earlier | rfl
    · obtain ⟨wasDark, lit⟩ := ih before earlier
      exact ⟨wasDark, by rw [lit, Bool.true_or]⟩
    · have wasDark : hostPixel fb qx qy = false := Bool.eq_false_iff.mpr fun lit =>
        Bool.eq_false_iff.mp (dark pixel) (lit_drawRows_of_no_collision hx hy before lit)
      exact ⟨wasDark, by rw [pixel, Bool.or_true]⟩

end

/-- A row byte other than 0 has a pixel on the screen (43_display R172). -/
theorem exists_rowPixel_of_ne_zero {p : Byte} (px py : Nat) (hp : p ≠ 0) :
    ∃ qx qy, qx < 64 ∧ qy < 32 ∧ rowPixel p px py qx qy = true := by
  obtain ⟨k, hk, bit⟩ := (ne_zero_iff_exists_bit p).mp hp
  have distance : ((px + (7 - k)) % 64 + 64 - px % 64) % 64 = 7 - k := by omega
  refine ⟨(px + (7 - k)) % 64, py % 32, by omega, by omega, ?_⟩
  rw [rowPixel, distance, show 7 - (7 - k) = k by omega, bit, decide_eq_true rfl, decide_eq_true (by omega)]
  rfl

/-- Of two draws of a sprite with a lit pixel one collides: without a collision the first would leave the pixel lit and the
second would find it dark (43_display R175). -/
theorem drawRows_twice_collides (m : Memory) (i : Word) (px py : Nat) (fb : Framebuffer) {n r : Nat} (hr : r < n)
    (lit : m.readAt (indirect i r) ≠ 0) :
    (drawRows m i px py fb n).2 = true ∨ (drawRows m i px py (drawRows m i px py fb n).1 n).2 = true := by
  obtain ⟨qx, qy, hx, hy, pixel⟩ := exists_rowPixel_of_ne_zero px (py + r) lit
  by_contra! neither
  obtain ⟨first, second⟩ := neither
  have left := (drawRows_lights_of_no_collision hx hy (Bool.of_not_eq_true first) hr pixel).2
  have found := (drawRows_lights_of_no_collision hx hy (Bool.of_not_eq_true second) hr pixel).1
  exact Bool.false_ne_true (found.symm.trans left)

/-- What the second of two draws draws: the same sprite at the same place, on the screen the first one left. -/
theorem drawn_after_drw {x y n : Nibble} {s t : State} (hx : x ≠ 0xF) (hy : y ≠ 0xF) (h : exec (.drw x y n) s = .next t) :
    t.drawn x y n = drawRows s.mem s.i (s.reg x).toNat (s.reg y).toNat (s.drawn x y n).1 n.toNat := by
  have keptX : t.reg x = s.reg x := reg_of_drw h hx
  have keptY : t.reg y = s.reg y := reg_of_drw h hy
  rw [State.drawn, keptX, keptY]
  cases h
  rfl

/-- Settles O50: the second draw XORs the same bytes, and one of the two finds a pixel of the sprite lit. -/
theorem drawTwiceRestoresTheScreen : Obligations.DrawTwiceRestoresTheScreen := by
  intro x y n s hx hy
  obtain ⟨t, ht⟩ : ∃ t, exec (.drw x y n) s = .next t := ⟨_, exec_drw_eq x y n s⟩
  refine ⟨t, _, ht, exec_drw_eq x y n t, ?_, fun ⟨r, hr, lit⟩ => ?_⟩
  · exact (congrArg Prod.fst (drawn_after_drw hx hy ht)).trans (drawRows_twice _ _ _ _ _ _)
  · rw [flag_of_drw ht, flag_of_drw (exec_drw_eq x y n t), flagByte_eq_one_iff, flagByte_eq_one_iff,
      drawn_after_drw hx hy ht]
    exact drawRows_twice_collides s.mem s.i _ _ s.fb hr lit

end Sys2Proof.Machine

/-! The family 44_timers_input: the key skips, the key wait, and the copies between registers and timers. -/

namespace Sys2Proof.Machine

/-! ## Keys -/

/-- Settles O52: what the wait takes is the lowest set bit of input. -/
theorem keyWaitTakesTheLowestKey : Obligations.KeyWaitTakesTheLowestKey := by
  refine fun x s => ⟨exec_ldVxK_waits x s, fun hheld => ?_⟩
  obtain ⟨k, hk, hset, hbelow, hlowest⟩ := lowest_spec s.input hheld
  have takes : exec (.ldVxK x) s = .next (s.setReg x (BitVec.ofNat 8 k)).nextInstr :=
    hlowest ▸ exec_ldVxK_takes x s hheld
  exact ⟨k, hk, hset, hbelow, setsRegisters_of_setReg takes⟩

/-- The level of a key, in the spec's arithmetic (44_timers_input R190). -/
theorem held_iff (m : Word) (k : Byte) : held m k = true ↔ k.toNat < 16 ∧ m.toNat / 2 ^ k.toNat % 2 = 1 := by
  rw [held_eq, decide_eq_true_iff]

/-- Settles O51: SKP skips on the level of the key, SKNP on its negation. -/
theorem keySkipsTestTheLevel : Obligations.KeySkipsTestTheLevel := by
  intro x s isHeld
  have level : held s.input (s.reg x) = true ↔ isHeld := held_iff s.input (s.reg x)
  have notHeld : (!held s.input (s.reg x)) = true ↔ ¬ isHeld := by rw [Bool.not_eq_true', ← level, Bool.not_eq_true]
  constructor
  · exact congrArg Host.Outcome.next (s.skipIf_iff level)
  · rw [← ite_not]
    exact congrArg Host.Outcome.next (s.skipIf_iff notHeld)

/-! ## Timers -/

/-- Settles O54: a timer is a field of its own, so writing one leaves pc and all else to the advance. -/
theorem timerCopies : Obligations.TimerCopies := fun _ _ =>
  ⟨setsRegisters_of_setReg rfl, congrArg Host.Outcome.next (State.nextInstr_of_pc rfl),
    congrArg Host.Outcome.next (State.nextInstr_of_pc rfl)⟩

end Sys2Proof.Machine

/-! The family 60_exceptions: StackFault and its latch, what a tick reports, and the host operations. -/

namespace Sys2Proof.Machine

/-! ## Raising StackFault -/

/-- An instruction other than CALL, RET and LD Vx,K leaves latch and status (60_exceptions R210, R214). -/
theorem latch_and_status_of_quiet {i : Instr} {s t : State} (h : exec i s = .next t) (hs : Instr.usesStack i = false)
    (hk : ∀ x, i ≠ .ldVxK x) : t.faulted = s.faulted ∧ t.status = s.status := by
  obtain ⟨u, hu, -, -, hfaulted, hstatus, -⟩ := exec_of_quiet i s hs hk
  cases h.symm.trans hu
  exact ⟨hfaulted, hstatus⟩

/-- Settles O16: CALL and RET past their bounds set the latch; every other outcome of an instruction leaves it clear. -/
theorem onlyCallAndRetRaise : Obligations.OnlyCallAndRetRaise := by
  intro i s t hf h ht
  have changed : t.faulted ≠ s.faulted := by rw [ht, hf]; decide
  cases i with
  | call nnn =>
    obtain ⟨hfull, e⟩ | ⟨-, target, stack, e⟩ := exec_call_cases h <;> cases e
    · exact .inl ⟨⟨nnn, rfl⟩, hfull, rfl⟩
    · exact absurd rfl changed
  | ret =>
    obtain ⟨hempty, e⟩ | ⟨-, e⟩ | ⟨-, -, target, e⟩ := exec_ret_cases h <;> cases e
    · exact .inr ⟨rfl, hempty, rfl⟩
    · exact absurd rfl changed
  | ldVxK x => obtain ⟨-, e⟩ | ⟨-, e⟩ := exec_ldVxK_cases h <;> cases e <;> exact absurd rfl changed
  | _ => exact absurd (latch_and_status_of_quiet h rfl nofun).1 changed

/-! ## The status a tick reports -/

theorem Status.exists_cause_of_isFaulted {b : Status} (h : b.isFaulted = true) : ∃ cause, b = .faulted cause := by
  cases b with
  | faulted cause => exact ⟨cause, rfl⟩
  | running | waiting => exact nomatch h

section
variable {s t : State}

/-- CALL reports Faulted(Overflow) past its bound, else it leaves the status (60_exceptions R211, R214). -/
theorem status_of_call {nnn : Addr} (h : exec (.call nnn) s = .next t) :
    t.status = if 62 < s.sp.toNat then .faulted .overflow else s.status := by
  obtain ⟨hfull, e⟩ | ⟨hroom, target, stack, e⟩ := exec_call_cases h <;> cases e
  · exact (if_pos hfull).symm
  · exact (if_neg (Nat.not_lt.mpr hroom)).symm

/-- RET reports Faulted(Underflow) past its bound, else it leaves the status (60_exceptions R211, R214). -/
theorem status_of_ret (h : exec .ret s = .next t) :
    t.status = if s.sp.toNat < 2 then .faulted .underflow else s.status := by
  obtain ⟨hempty, e⟩ | ⟨-, e⟩ | ⟨h₂, -, target, e⟩ := exec_ret_cases h <;> cases e
  · exact (if_pos hempty).symm
  · exact (if_neg (Nat.not_lt.mpr h₂)).symm

/-- LD Vx,K reports Waiting with no key held, else it leaves the status (44_timers_input R195). -/
theorem status_of_ldVxK {x : Nibble} (h : exec (.ldVxK x) s = .next t) :
    t.status = if s.input = 0 then .waiting else s.status := by
  obtain ⟨hnone, e⟩ | ⟨hheld, e⟩ := exec_ldVxK_cases h <;> cases e
  · exact (if_pos hnone).symm
  · exact (if_neg hheld).symm

end

/-- Settles O9: a faulted block's tick keeps its status, which is Faulted as the latch says; else the instruction fetched
decides, started with status Running. -/
theorem eachTickReportsItsStatus : Obligations.EachTickReportsItsStatus := by
  intro s t hagrees hop h
  rw [step_of_tick s hop] at h
  cases hf : s.faulted with
  | true =>
    rw [tick_of_faulted s.takeOp hf] at h
    cases h
    exact ⟨Status.exists_cause_of_isFaulted (hagrees.symm.trans hf), rfl⟩
  | false =>
    have fetched : s.takeOp.fetchWord s.takeOp.pc = s.fetchWord s.pc := rfl
    rw [tick_of_not_faulted s.takeOp hf, fetched] at h
    rw [if_neg Bool.false_ne_true]
    generalize decodeWord (s.fetchWord s.pc) = i at h ⊢
    cases i with
    | call nnn => exact status_of_call h
    | ret => exact status_of_ret h
    | ldVxK x => exact status_of_ldVxK h
    | _ => exact (latch_and_status_of_quiet h rfl nofun).2

/-! ## The latch is sticky -/

/-- A Load that completes writes memory alone (60_exceptions R230). -/
theorem State.eq_of_load {s t : State} {program : List Byte} (h : s.load program = .next t) :
    t = { s with mem := t.mem } := by
  rcases Nat.lt_or_ge 3584 program.length with hlong | hfits
  · rw [State.load_of_too_long hlong] at h
    cases h
  · rw [State.load_of_fits hfits] at h
    cases h
    rfl

/-- While the latch is set, a host operation other than Reset changes at most timers, memory and input (60_exceptions
R213). -/
theorem perform_of_faulted {op : HostOp} {s t : State} (hf : s.faulted = true) (hop : ∀ font, op ≠ .reset font)
    (h : perform op s = .next t) : t = { s with dt := t.dt, st := t.st, mem := t.mem, input := t.input } := by
  cases op with
  | tick =>
    cases (tick_of_faulted s hf).symm.trans h
    rfl
  | timerTick | setInput =>
    cases h
    rfl
  | reset font => exact absurd rfl (hop font)
  | load program => rw [State.eq_of_load h]

/-- Settles O15: neither taking the next operation off nor performing it touches the latch or what the fault keeps. -/
theorem latchIsSticky : Obligations.LatchIsSticky := by
  intro s t hf hop h
  rw [perform_of_faulted (s := s.takeOp) hf hop h]
  exact ⟨hf, rfl, rfl, rfl, rfl, rfl, rfl, rfl⟩

/-! ## Timers and keys -/

/-- Settles O55: the countdown of each timer. -/
theorem timerTickCountsDown : Obligations.TimerTickCountsDown := by
  intro s
  rw [← countDown_eq, ← countDown_eq]
  rfl

/-- A tick leaves the schedule: taking its own entry off is the step's part (log 3). -/
theorem tick_schedule {s t : State} (h : tick s = .next t) : t.schedule = s.schedule := by
  cases hf : s.faulted with
  | true =>
    cases (tick_of_faulted s hf).symm.trans h
    rfl
  | false => exact (exec_schedule _ _ t ((tick_of_not_faulted s hf).symm.trans h)).1

/-- Settles O56: the tick leaves the timer tick at the head of the schedule, for the step after it. -/
theorem tickGoesBeforeTimerTick : Obligations.TickGoesBeforeTimerTick := by
  intro rest s t hs h
  have first : step s = tick { s with schedule := .timerTick :: rest } := step_of_cons s _ _ hs
  have second : step t = perform .timerTick { t with schedule := rest } := step_of_cons t _ _ (tick_schedule h)
  exact ⟨first.trans h, second.trans (timerTickCountsDown _)⟩

/-- Settles O57: the step of a listed SetInput. -/
theorem setInputWritesInputOnly : Obligations.SetInputWritesInputOnly := fun _ _ _ => step_of_setInput

end Sys2Proof.Machine

/-! The family 70_reset_and_hazards: the end of a run. -/

namespace Sys2Proof.Machine

/-- The low 12 bits of a word (30_encoding R81). -/
theorem nnnField_toNat (w : Word) : (nnnField w).toNat = w.toNat % 4096 := by
  simp only [nnnField, BitVec.extractLsb'_toNat, Nat.shiftRight_zero]

/-- A JP to its own address, as the end of a run spells its word: code 1 above the low 12 bits of the address
(70_reset_and_hazards R255, 92 D23). -/
theorem jpSelfWord_eq_encode (a : Word) : 0x1000#16 ||| (a &&& 0x0FFF#16) = encode (.jp (nnnField a)) := by
  have op : opField (0x1000#16 ||| (a &&& 0x0FFF#16)) = 0x1 := by
    simp [opField, BitVec.extractLsb'_or, BitVec.extractLsb'_and]
  have nnn : nnnField (0x1000#16 ||| (a &&& 0x0FFF#16)) = nnnField a := by
    simp only [nnnField, BitVec.extractLsb'_or, BitVec.extractLsb'_and]
    exact BitVec.zero_or.trans BitVec.and_allOnes
  exact (eq_iff_op_nnn _ _).mpr ⟨op.trans (opField_wordNnn _ _).symm, nnn.trans (nnnField_wordNnn _ _).symm⟩

/-- JP to the low 12 bits of pc stays at pc, where pc is at most 0xFFF (40_control_flow R111, R116). -/
theorem exec_jp_self {s : State} (hpc : s.pc.toNat ≤ 0x0FFF) : exec (.jp (nnnField s.pc)) s = .next s := by
  have same : BitVec.ofNat 16 (nnnField s.pc).toNat = s.pc := by
    rw [nnnField_toNat, Nat.mod_eq_of_lt (Nat.lt_succ_of_le hpc), BitVec.ofNat_toNat, BitVec.setWidth_eq]
  rw [jumpSetsPc, same]

/-- The tick of an ended run runs its JP, which leaves the whole state (92 D23). -/
theorem tick_of_ended {s : State} (h : ended s) : tick s = .next s := by
  obtain ⟨hf, hrunning, hword, hpc⟩ := h
  have self : { s with status := .running } = s := by rw [← hrunning]
  rw [tick_of_not_faulted s hf, hword, jpSelfWord_eq_encode, decodeOfEncode _ rfl, self]
  exact exec_jp_self hpc

/-- Settles O18: with the tick taken off the schedule the run is still ended, and its tick changes nothing. -/
theorem endedStateIsFinal : Obligations.EndedStateIsFinal := by
  intro s h hop
  have hended : ended s.takeOp := h
  exact (step_of_tick s hop).trans (tick_of_ended hended)

end Sys2Proof.Machine
